-- ==== Sys2Proof/Word.lean ====
section
/-! DEFINITION. The word types of the block: a command word is 32 bits (R80), a register 16 bits (R26), a T77 byte
operand 8 bits (R84). The block has no byte order for whole words (R64). -/

namespace Sys2Proof

/-- A command word (R80), and the width of RATE, RUN and SPAN (R31, R36, R37). -/
abbrev Word := BitVec 32

/-- A configuration or status register, a sample operand, a T77 value (R26, R82, R62). -/
abbrev Half := BitVec 16

/-- A register index, or one byte of a T77 image (R82, R84). -/
abbrev Byte := BitVec 8

end Sys2Proof
end

