-- ==== Sys2Proof/Syntax.lean ====
section
/-! DEFINITION. The commands of the block (R96), the names of its registers (R26) and of its derivation formats (R88),
and the form of an opcode-table row (R89). -/

namespace Sys2Proof

/-- The eleven commands of R96, one constructor per row of the opcode table, with the operands of R82.
An operand's type is exactly as wide as its field, so every term can be encoded; a REG or FMT whose value names nothing
still decodes and is faulted when it is executed (R90). -/
inductive Instr where
  /-- CFG.WRITE REG, DATA (R221). -/
  | cfgWrite (reg : Byte) (data : Half)
  /-- CFG.READ REG (R220). -/
  | cfgRead (reg : Byte)
  /-- CFG.DERIVE FMT (R222). -/
  | cfgDerive (fmt : BitVec 3)
  /-- CTL.START (R223). -/
  | ctlStart
  /-- Q.CLASSIFY DATA (R106). -/
  | qClassify (data : Half)
  /-- SRC.SAMPLE DATA (R224). -/
  | srcSample (data : Half)
  /-- SRC.BYTE BYTE (R171). -/
  | srcByte (byte : Byte)
  /-- SRC.EOF (R225). -/
  | srcEof
  /-- SNK.GET (R202). -/
  | snkGet
  /-- CTL.ABORT (R226). -/
  | ctlAbort
  /-- CTL.RESET (R227). -/
  | ctlReset
  deriving DecidableEq, Repr

/-- The 22 defined registers, under the names of R26. -/
inductive Reg where
  | ctrl | status | fcode | finfo | rateLo | rateHi | dcdN1 | dcdN0
  | hcdZmin | hcdZmax | hcdOmin | hcdOmax | tpdLong | tpdShort | tpdMargin
  | qThlo | qThhi | runLo | runHi | spanLo | spanHi | tpdPos
  deriving DecidableEq, Repr

/-- The derivation formats of CFG.DERIVE (R88). -/
inductive Fmt where
  | fb | kcs | msx | kcsLegacy | msxLegacy
  deriving DecidableEq, Repr

/-- One row of the opcode map (R96): a word is the row's command when `word & mask = pattern` (R89). -/
structure OpRow where
  /-- The row's mnemonic, as the table spells it. -/
  mnemonic : String
  /-- The opcode field, bits [31:28]. -/
  op : BitVec 4
  /-- The value of the fixed bits (the table's "match"). -/
  pattern : Word
  /-- Which bits are fixed. -/
  mask : Word
  deriving DecidableEq, Repr

end Sys2Proof
end

