-- ==== Sys2Proof/WellFormed.lean ====
section
/-! DEFINITION. Which commands have operands that name something: the values R90 calls illegal are refused here.
Every command can be encoded and decoded, well-formed or not; a command that is not well-formed is executed as the
E_ILLEGAL fault of R261 (R220, R221, R222). -/

namespace Sys2Proof

/-- The indices a CFG.WRITE may name (RW_SET of R230). -/
def rwIndices : List Byte :=
  [0x00, 0x04, 0x05, 0x06, 0x07, 0x08, 0x09, 0x0A, 0x0B, 0x0C, 0x0D, 0x0E]

/-- The indices of the read-only registers (RO_SET of R230). -/
def roIndices : List Byte :=
  [0x01, 0x02, 0x03, 0x0F, 0x10, 0x11, 0x12, 0x13, 0x14, 0x15]

/-- A command's operands are legal (R90): a CFG.WRITE names a read-write register, a CFG.READ a defined one, a
CFG.DERIVE one of the formats 0 to 4. -/
def Instr.wellFormed : Instr → Bool
  | .cfgWrite reg _ => rwIndices.contains reg
  | .cfgRead reg => rwIndices.contains reg || roIndices.contains reg
  | .cfgDerive fmt => decide (fmt.toNat ≤ 4)
  | .ctlStart => true
  | .qClassify _ => true
  | .srcSample _ => true
  | .srcByte _ => true
  | .srcEof => true
  | .snkGet => true
  | .ctlAbort => true
  | .ctlReset => true

end Sys2Proof
end

