-- ==== Sys2Proof/Decode.lean ====
section
/-! DEFINITION. Decoding a command word (R80 to R82, R89, R96), encoding a command (R81), the assembler's spelling (R93) and
the pseudo-instructions (R94). -/

namespace Sys2Proof

/-- The opcode map (R96): the table's match and mask for each command. -/
def opcodeTable : List OpRow :=
  [ { mnemonic := "CFG.WRITE",  op := 0x1, pattern := 0x10000000, mask := 0xFF000000 },
    { mnemonic := "CFG.READ",   op := 0x2, pattern := 0x20000000, mask := 0xFF00FFFF },
    { mnemonic := "CFG.DERIVE", op := 0x3, pattern := 0x30000000, mask := 0xFFF8FFFF },
    { mnemonic := "CTL.START",  op := 0x4, pattern := 0x40000000, mask := 0xFFFFFFFF },
    { mnemonic := "Q.CLASSIFY", op := 0x5, pattern := 0x50000000, mask := 0xFFFF0000 },
    { mnemonic := "SRC.SAMPLE", op := 0x6, pattern := 0x60000000, mask := 0xFFFF0000 },
    { mnemonic := "SRC.BYTE",   op := 0x7, pattern := 0x70000000, mask := 0xFFFFFF00 },
    { mnemonic := "SRC.EOF",    op := 0x8, pattern := 0x80000000, mask := 0xFFFFFFFF },
    { mnemonic := "SNK.GET",    op := 0x9, pattern := 0x90000000, mask := 0xFFFFFFFF },
    { mnemonic := "CTL.ABORT",  op := 0xA, pattern := 0xA0000000, mask := 0xFFFFFFFF },
    { mnemonic := "CTL.RESET",  op := 0xB, pattern := 0xB0000000, mask := 0xFFFFFFFF } ]

/-- OP = word[31:28] (R80). -/
def opField (w : Word) : BitVec 4 := w.extractLsb' 28 4

/-- REG = word[23:16] (R82). -/
def regField (w : Word) : Byte := w.extractLsb' 16 8

/-- FMT = word[18:16] (R82). -/
def fmtField (w : Word) : BitVec 3 := w.extractLsb' 16 3

/-- DATA = word[15:0] (R82). -/
def dataField (w : Word) : Half := w.extractLsb' 0 16

/-- BYTE = word[7:0] (R82). -/
def byteField (w : Word) : Byte := w.extractLsb' 0 8

/-- word[31:16], what an interface fault records (R263). -/
def highHalf (w : Word) : Half := w.extractLsb' 16 16

/-- The decoder (R89): OP selects the row, the row's mask is checked, and a word that fails spells no command (R80).
It is total on 32-bit words. -/
def decodeWord (w : Word) : Option Instr :=
  match (opField w).toNat with
  | 0x1 => if w &&& 0xFF000000#32 = 0x10000000#32 then some (.cfgWrite (regField w) (dataField w)) else none
  | 0x2 => if w &&& 0xFF00FFFF#32 = 0x20000000#32 then some (.cfgRead (regField w)) else none
  | 0x3 => if w &&& 0xFFF8FFFF#32 = 0x30000000#32 then some (.cfgDerive (fmtField w)) else none
  | 0x4 => if w &&& 0xFFFFFFFF#32 = 0x40000000#32 then some .ctlStart else none
  | 0x5 => if w &&& 0xFFFF0000#32 = 0x50000000#32 then some (.qClassify (dataField w)) else none
  | 0x6 => if w &&& 0xFFFF0000#32 = 0x60000000#32 then some (.srcSample (dataField w)) else none
  | 0x7 => if w &&& 0xFFFFFF00#32 = 0x70000000#32 then some (.srcByte (byteField w)) else none
  | 0x8 => if w &&& 0xFFFFFFFF#32 = 0x80000000#32 then some .srcEof else none
  | 0x9 => if w &&& 0xFFFFFFFF#32 = 0x90000000#32 then some .snkGet else none
  | 0xA => if w &&& 0xFFFFFFFF#32 = 0xA0000000#32 then some .ctlAbort else none
  | 0xB => if w &&& 0xFFFFFFFF#32 = 0xB0000000#32 then some .ctlReset else none
  | _ => none

/-- The 32-bit word whose low `nbits` bits are those of `w` and whose other bits are 0. -/
def tableWord (nbits w : Nat) : Word := BitVec.ofNat 32 (w % 2 ^ nbits)

/-- What the decoder reads from the command whose bits are `w`, numbered as the opcode table numbers them. A command is one
32-bit word and no longer form exists (R92); whole words have no byte order (R64, log entry 5). -/
def decodeTableWord (nbits w : Nat) : Option Instr :=
  if nbits ≤ 32 then decodeWord (tableWord nbits w) else none

/-- The encoder, from the formats of R81 and the words of R93: reserved bits are 0. -/
def encode : Instr → Word
  | .cfgWrite reg data => 0x1#4 ++ 0x0#4 ++ reg ++ data
  | .cfgRead reg => 0x2#4 ++ 0x0#4 ++ reg ++ 0x0000#16
  | .cfgDerive fmt => 0x3#4 ++ 0x0#4 ++ 0b00000#5 ++ fmt ++ 0x0000#16
  | .ctlStart => 0x40000000#32
  | .qClassify data => 0x5#4 ++ 0x000#12 ++ data
  | .srcSample data => 0x6#4 ++ 0x000#12 ++ data
  | .srcByte byte => 0x7#4 ++ 0x00000#20 ++ byte
  | .srcEof => 0x80000000#32
  | .snkGet => 0x90000000#32
  | .ctlAbort => 0xA0000000#32
  | .ctlReset => 0xB0000000#32

/-- word[31:16] of a command's own word: what FINFO records for an interface fault (R263, log entry 8). -/
def cmdHigh (i : Instr) : Half := highHalf (encode i)

/-- The opcode-table row of a command (R96). -/
def rowMnemonic : Instr → String
  | .cfgWrite _ _ => "CFG.WRITE"
  | .cfgRead _ => "CFG.READ"
  | .cfgDerive _ => "CFG.DERIVE"
  | .ctlStart => "CTL.START"
  | .qClassify _ => "Q.CLASSIFY"
  | .srcSample _ => "SRC.SAMPLE"
  | .srcByte _ => "SRC.BYTE"
  | .srcEof => "SRC.EOF"
  | .snkGet => "SNK.GET"
  | .ctlAbort => "CTL.ABORT"
  | .ctlReset => "CTL.RESET"

/-- The assembler's spelling of a command (R93), operands written as numbers. -/
def asmText : Instr → String
  | .cfgWrite reg data => "cfg.write " ++ toString reg.toNat ++ ", " ++ toString data.toNat
  | .cfgRead reg => "cfg.read " ++ toString reg.toNat
  | .cfgDerive fmt => "cfg.derive " ++ toString fmt.toNat
  | .ctlStart => "ctl.start"
  | .qClassify data => "q.classify " ++ toString data.toNat
  | .srcSample data => "src.sample " ++ toString data.toNat
  | .srcByte byte => "src.byte " ++ toString byte.toNat
  | .srcEof => "src.eof"
  | .snkGet => "snk.get"
  | .ctlAbort => "ctl.abort"
  | .ctlReset => "ctl.reset"

/-- `cfg.rate R`: RATE_LO, then RATE_HI (R94). -/
def pseudoCfgRate (rate : Word) : List Instr :=
  [.cfgWrite 0x04 (rate.extractLsb' 0 16), .cfgWrite 0x05 (rate.extractLsb' 16 16)]

/-- `src.samples d1, ..., dk` (R94). -/
def pseudoSrcSamples (ds : List Half) : List Instr := ds.map .srcSample

/-- `src.run d, n` (R94). -/
def pseudoSrcRun (d : Half) (n : Nat) : List Instr := List.replicate n (.srcSample d)

/-- `src.value v`: the high byte, then the low byte (R94, R62). -/
def pseudoSrcValue (v : Half) : List Instr :=
  [.srcByte (v.extractLsb' 8 8), .srcByte (v.extractLsb' 0 8)]

/-- HDR[0..17], the T77 header: "XM7 TAPE IMAGE ", the version character "0", two zero bytes (R173). -/
def t77Header : List Byte :=
  [0x58, 0x4D, 0x37, 0x20, 0x54, 0x41, 0x50, 0x45, 0x20, 0x49, 0x4D, 0x41, 0x47, 0x45, 0x20,
   0x30, 0x00, 0x00]

/-- `src.t77header`: the 18 SRC.BYTE commands of R173 (R94). -/
def pseudoSrcT77Header : List Instr := t77Header.map .srcByte

end Sys2Proof
end

