-- ==== Sys2Proof/Config.lean ====
section
/-! DEFINITION. What the spec leaves open: the one named parameter of the block (R10, R53). -/

namespace Sys2Proof

/-- P_TPD_MARGIN_RESET, the reset value of register TPD_MARGIN: the one parameter the spec leaves OPEN (R10, D23, I3).
It has no body, so no proof can learn its value and a claim about it holds for every value (log entry 1). -/
opaque Config.tpdMarginReset : Half

end Sys2Proof
end

