-- ==== Sys2Proof/Machine/State.lean ====
section
/-! DEFINITION. The state of the block (the record of R23, every element of it), the ports and the schedule its agents act
through, the stop reasons, and the state after reset (R50, R51, R300). -/

namespace Sys2Proof.Machine

/-- PHASE, the life-cycle phase (R22). -/
inductive Phase where
  | idle | running | draining | done | faulted
  deriving DecidableEq, Repr

/-- HPH, the half-cycle measuring phase (R38). -/
inductive Hph where
  | waitLow | counting
  deriving DecidableEq, Repr

/-- PEND, the half-cycle lookback flag (R39). -/
inductive Pend where
  | idle | pendingOne
  deriving DecidableEq, Repr

/-- A quantizer level (R14, R86). -/
inductive Level where
  | low | mid | high
  deriving DecidableEq, Repr

/-- A bit code (R14, R87): code 3 is never emitted, and there is no term for it (log entry 7). -/
inductive BitCode where
  | zero | one | error
  deriving DecidableEq, Repr

/-- The agents outside the block, each with a port of its own (R20). -/
inductive Port where
  | host | source | consumer
  deriving DecidableEq, Repr

/-- Whose turn a step is: an agent outside the block, or the producer inside it (R20). -/
inductive Agent where
  | external (p : Port)
  | producer
  deriving DecidableEq, Repr

/-- A response (R85): what CFG.READ, Q.CLASSIFY and SNK.GET deliver. -/
inductive Response where
  /-- KIND 0, a register value (CFG.READ). -/
  | value (v : Half)
  /-- KIND 0, a level (Q.CLASSIFY). -/
  | level (l : Level)
  /-- KIND 0, a bit code (SNK.GET). -/
  | bit (b : BitCode)
  /-- KIND 1, end of stream. -/
  | eos
  /-- KIND 2. -/
  | fault
  deriving DecidableEq, Repr

/-- The causes of R260 that raise a fault (E_NONE is the absence of one). These are values of the block's own FCODE
register; they do not stop the model. -/
inductive FaultCode where
  | illegal | cfgLocked | protocol | mode | encoding | depth | window | derive | magic | version | abort
  deriving DecidableEq, Repr

/-- The stop reasons of the model, none of them a fault of the block: a fault of the block is the phase FAULTED (R262).
Both arise only in states that no run from reset reaches, where the spec's pseudocode has no branch to take. Safe: the
model stops where the block never is (log entry 6). -/
inductive Fault where
  /-- Raised by SRC.SAMPLE: RUNNING in a sample mode with CTRL.DEPTH neither 8 nor 16. R103: the quantizer is never applied
  to an illegal depth. Safe. -/
  | depthInRun
  /-- Raised by SRC.EOF: RUNNING with CTRL.MODE outside 1, 2 and 3, which CTL.START refuses (R223). Safe. -/
  | modeInRun
  deriving DecidableEq, Repr

/-- Why a command has no meaning in the model. No arm of this model raises it. -/
inductive Refusal where
  /-- Raised by exec for an instruction that is not modelled. Safe. -/
  | notModelled (mnemonic : String)
  deriving DecidableEq, Repr

/-- The state. The first part is the block's complete state, the record of R23 under its own names. The second part is not
the block's: it holds what the agents have issued and received and the order in which they act (log entries 2, 3, 4). -/
structure State where
  /-- PHASE (R22). -/
  phase : Phase
  /-- CTRL (R27), 16 bits. -/
  ctrl : Half
  /-- FCODE (R29), 8 bits. -/
  fcode : Byte
  /-- FINFO (R30). -/
  finfo : Half
  /-- RATE (R31), 32 bits. -/
  rate : Word
  /-- N1 (R32). -/
  n1 : Half
  /-- N0 (R32). -/
  n0 : Half
  /-- ZMIN (R33). -/
  zmin : Half
  /-- ZMAX (R33). -/
  zmax : Half
  /-- OMIN (R33). -/
  omin : Half
  /-- OMAX (R33). -/
  omax : Half
  /-- TLONG (R34). -/
  tlong : Half
  /-- TSHORT (R34). -/
  tshort : Half
  /-- TMARGIN (R34). -/
  tmargin : Half
  /-- RUN (R36), 32 bits, saturating. -/
  run : Word
  /-- SPAN (R37), 32 bits, saturating. -/
  span : Word
  /-- HPH (R38). -/
  hph : Hph
  /-- PEND (R39). -/
  pend : Pend
  /-- HIDX (R40), 0 to 18. -/
  hidx : Nat
  /-- HB_VALID (R40). -/
  hbValid : Bool
  /-- HB (R40). -/
  hb : Byte
  /-- W (R40), oldest first. -/
  w : List Half
  /-- OUTQ (R41), oldest first. -/
  outq : List BitCode
  /-- SLOT_FULL (R42). -/
  slotFull : Bool
  /-- SLOT_VAL (R42), code 0 when the slot is empty. -/
  slotVal : BitCode
  /-- CLOSED (R42). -/
  closed : Bool
  /-- The words the host has issued that are not yet executed, oldest first (log entry 2). -/
  hostQ : List Word
  /-- The words the source has issued that are not yet executed, oldest first (log entry 2). -/
  sourceQ : List Word
  /-- The words the consumer has issued that are not yet executed, oldest first (log entry 2). -/
  consumerQ : List Word
  /-- The order in which the agents act from here on; every interleaving of R15 is some schedule (log entry 2). -/
  sched : List Agent
  /-- The port of the command being executed, where its response goes (R13, log entry 3). -/
  port : Port
  /-- The responses delivered so far, oldest first, each with the port it went to (R13, R85, log entry 4). -/
  responses : List (Port × Response)
  deriving DecidableEq, Repr

/-- The state after power-on reset (R50, R51, R300), with nothing issued, nothing scheduled and nothing delivered. -/
def State.reset : State where
  phase := .idle
  ctrl := 0x0000
  fcode := 0
  finfo := 0x0000
  rate := 0
  n1 := 0
  n0 := 0
  zmin := 0
  zmax := 0
  omin := 0
  omax := 0
  tlong := 0x0030
  tshort := 0x0016
  tmargin := Config.tpdMarginReset
  run := 0
  span := 0
  hph := .waitLow
  pend := .idle
  hidx := 0
  hbValid := false
  hb := 0
  w := []
  outq := []
  slotFull := false
  slotVal := .zero
  closed := false
  hostQ := []
  sourceQ := []
  consumerQ := []
  sched := []
  port := .host
  responses := []

end Sys2Proof.Machine
end

