-- ==== Sys2Proof/Machine/Operands.lean ====
section
/-! DEFINITION. What an operand or a code stands for: register indices and formats (R26, R88), samples (R83, R100), T77 bytes and
values (R62, R84, R174), and the codes of levels, bits, faults, phases and responses (R22, R85, R86, R87, R260). -/

namespace Sys2Proof.Machine

/-- The register an index names; indices 0x16 to 0xFF are reserved (R26). -/
def regOfIndex (i : Byte) : Option Reg :=
  match i.toNat with
  | 0x00 => some .ctrl
  | 0x01 => some .status
  | 0x02 => some .fcode
  | 0x03 => some .finfo
  | 0x04 => some .rateLo
  | 0x05 => some .rateHi
  | 0x06 => some .dcdN1
  | 0x07 => some .dcdN0
  | 0x08 => some .hcdZmin
  | 0x09 => some .hcdZmax
  | 0x0A => some .hcdOmin
  | 0x0B => some .hcdOmax
  | 0x0C => some .tpdLong
  | 0x0D => some .tpdShort
  | 0x0E => some .tpdMargin
  | 0x0F => some .qThlo
  | 0x10 => some .qThhi
  | 0x11 => some .runLo
  | 0x12 => some .runHi
  | 0x13 => some .spanLo
  | 0x14 => some .spanHi
  | 0x15 => some .tpdPos
  | _ => none

/-- The access column of R26: true for RW, false for RO. -/
def regWritable : Reg → Bool
  | .ctrl | .rateLo | .rateHi | .dcdN1 | .dcdN0 | .hcdZmin | .hcdZmax | .hcdOmin | .hcdOmax
  | .tpdLong | .tpdShort | .tpdMargin => true
  | .status | .fcode | .finfo | .qThlo | .qThhi | .runLo | .runHi | .spanLo | .spanHi | .tpdPos => false

/-- The read-write register an index names: none for a reserved index and for a read-only register (R221). -/
def rwRegOfIndex (i : Byte) : Option Reg :=
  (regOfIndex i).filter regWritable

/-- The format an FMT code names; 5 to 7 are reserved (R88). -/
def fmtOfCode (f : BitVec 3) : Option Fmt :=
  match f.toNat with
  | 0 => some .fb
  | 1 => some .kcs
  | 2 => some .msx
  | 3 => some .kcsLegacy
  | 4 => some .msxLegacy
  | _ => none

/-- Amplitude(DATA, depth) (R100, R83): unsigned DATA[7:0] at depth 8, signed DATA at depth 16, no reading at another depth. -/
def amplitude (data : Half) (depth : Nat) : Option Int :=
  if depth = 8 then some ((data.extractLsb' 0 8).toNat : Int)
  else if depth = 16 then some data.toInt
  else none

/-- A T77 value from its two bytes, the first the more significant (R62). -/
def joinValue (hi lo : Byte) : Half := hi ++ lo

/-- pol(v) = v[15] (R174). -/
def polarity (v : Half) : Bool := v.getLsbD 15

/-- mag(v) = v[14:0] (R174). -/
def magnitude (v : Half) : Nat := (v.extractLsb' 0 15).toNat

/-- HDR[i] (R173). -/
def headerByte (i : Nat) : Byte := t77Header.getD i 0

/-- The code of a level (R86). -/
def levelCode : Level → BitVec 2
  | .low => 0
  | .mid => 1
  | .high => 2

/-- The code of a bit (R87). -/
def bitCode : BitCode → BitVec 2
  | .zero => 0
  | .one => 1
  | .error => 2

/-- PHASE as STATUS[2:0] holds it (R22). -/
def phaseCode : Phase → BitVec 3
  | .idle => 0
  | .running => 1
  | .draining => 2
  | .done => 3
  | .faulted => 4

/-- The FCODE value of a cause (R260). -/
def faultNumber : FaultCode → Byte
  | .illegal => 1
  | .cfgLocked => 2
  | .protocol => 3
  | .mode => 4
  | .encoding => 5
  | .depth => 6
  | .window => 7
  | .derive => 8
  | .magic => 9
  | .version => 10
  | .abort => 11

/-- KIND, bits [17:16] of a response (R85). -/
def responseKind : Response → BitVec 2
  | .value _ => 0
  | .level _ => 0
  | .bit _ => 0
  | .eos => 1
  | .fault => 2

/-- RDATA, bits [15:0] of a response (R85). -/
def responseData : Response → Half
  | .value v => v
  | .level l => (levelCode l).setWidth 16
  | .bit b => (bitCode b).setWidth 16
  | .eos => 0
  | .fault => 0

/-- The 18-bit response word (R85). -/
def responseWord (r : Response) : BitVec 18 := responseKind r ++ responseData r

/-- `snk.drain` repeats `snk.get` while this holds of the response: until one with KIND other than 0 (R94). -/
def drainGoesOn (r : Response) : Bool := responseKind r == 0

/-- The commands that `snk.drain` expands to when the responses received so far are `rs` (R94): a first `snk.get`, and another
one after each response with KIND 0, until a response with KIND other than 0. -/
def pseudoSnkDrain : List Response → List Instr
  | [] => [.snkGet]
  | r :: rs => .snkGet :: if drainGoesOn r then pseudoSnkDrain rs else []

/-- The command that `snk.drain` issues next, when each of its commands so far has been answered and the responses are `rs`;
none once it has ended (R94). -/
def nextDrainCommand (rs : List Response) : Option Instr := (pseudoSnkDrain rs)[rs.length]?

end Sys2Proof.Machine
end

