-- ==== Sys2Proof/Machine/Flags.lean ====
section
/-! DEFINITION. The fields of CTRL (R27), and the flags and counters as the registers STATUS and TPD_POS show them (R28, R40). The
block has no arithmetic condition codes (R43). -/

namespace Sys2Proof.Machine

/-- CTRL.MODE, bits [2:0]: 1 DCD, 2 HCD, 3 TPD (R27). -/
def ctrlMode (s : State) : Nat := (s.ctrl.extractLsb' 0 3).toNat

/-- CTRL.NCP, bit 3: a half-cycle interval in neither window clears PEND (R27, R146). -/
def ctrlNcp (s : State) : Bool := s.ctrl.getLsbD 3

/-- CTRL.REV, bit 4: the T77 polarity mode (R27, R177). -/
def ctrlRev (s : State) : Bool := s.ctrl.getLsbD 4

/-- CTRL.PCM, bit 5: the audio encoding is linear PCM (R27, R104). -/
def ctrlPcm (s : State) : Bool := s.ctrl.getLsbD 5

/-- CTRL.DEPTH, bits [13:8], as a number (R27). -/
def ctrlDepth (s : State) : Nat := (s.ctrl.extractLsb' 8 6).toNat

/-- CTRL.DEPTH is one of the two legal depths (R103). -/
def depthLegal (s : State) : Bool := ctrlDepth s == 8 || ctrlDepth s == 16

/-- The mask of the CTRL bits a write stores (R27). -/
def ctrlWriteMask : Half := 0x3F3F

/-- STATUS, from the fields of R28, the most significant first. -/
def statusWord (s : State) : Half :=
  0#3 ++ BitVec.ofNat 4 s.outq.length ++ BitVec.ofBool (s.hph == .counting) ++
    BitVec.ofBool (s.pend == .pendingOne) ++ BitVec.ofBool s.closed ++ bitCode s.slotVal ++
    BitVec.ofBool s.slotFull ++ phaseCode s.phase

/-- TPD_POS = HB_VALID ++ 0b00 ++ HIDX[4:0] ++ 0b000 ++ |W|[4:0] (R40). -/
def tpdPosWord (s : State) : Half :=
  BitVec.ofBool s.hbValid ++ 0#2 ++ BitVec.ofNat 5 s.hidx ++ 0#3 ++ BitVec.ofNat 5 s.w.length

end Sys2Proof.Machine
end

