-- ==== Sys2Proof/Machine/Ops.lean ====
section
/-! DEFINITION. The operations the commands share: responding and waiting (R13), emitting a bit (R12), raising a fault (R262) and the
only way back from one, reset (R269, R300), the producer's own steps PUSH and CLOSE (R203, R204), an illegal word (R261),
saturating counts (R36, R37), the quantizer thresholds (R101), register access (R230), and the ports (R20). -/

namespace Sys2Proof.Machine

/-! ## Ports and turns -/

/-- The words a port's agent has issued that are not yet executed. -/
def portQueue (p : Port) (s : State) : List Word :=
  match p with
  | .host => s.hostQ
  | .source => s.sourceQ
  | .consumer => s.consumerQ

/-- The state with a port's issued words replaced. -/
def setPortQueue (p : Port) (q : List Word) (s : State) : State :=
  match p with
  | .host => { s with hostQ := q }
  | .source => { s with sourceQ := q }
  | .consumer => { s with consumerQ := q }

/-- The agent whose turn it is, and the state with that turn spent. When no turn is listed the producer acts, so an enabled
PUSH or CLOSE is not left untaken (R321, log entry 2). -/
def takeTurn (s : State) : Agent × State :=
  match s.sched with
  | [] => (.producer, s)
  | a :: rest => (a, { s with sched := rest })

/-- The oldest word a port's agent has issued, taken from its port, whose agent the response will go to (R13). -/
def takeWord (p : Port) (s : State) : Option (Word × State) :=
  match portQueue p s with
  | [] => none
  | w :: ws => some (w, { setPortQueue p ws s with port := p })

/-- The port whose agent normally issues a word with this opcode (the issuing column of R96; the host for CTL.ABORT and for
a word that spells no command). The block does not check it (R273, log entry 10). -/
def issuingPort (w : Word) : Port :=
  match (opField w).toNat with
  | 0x6 | 0x7 | 0x8 => .source
  | 0x9 => .consumer
  | _ => .host

/-! ## Responding, waiting, emitting -/

/-- respond(x): deliver a response to the agent that issued the command (R13). -/
def respond (r : Response) (s : State) : State :=
  { s with responses := s.responses ++ [(s.port, r)] }

/-- A command whose enabling condition is false has no step: its agent waits, with the command still at its port (R13,
log entry 3). -/
def wait (i : Instr) (s : State) : State :=
  setPortQueue s.port (encode i :: portQueue s.port s) s

/-- emit(b) for each bit of a list, the first emitted first (R12, R41). -/
def emitAll (bs : List BitCode) (s : State) : State :=
  { s with outq := s.outq ++ bs }

/-- emit(b) (R12). -/
def emit (b : BitCode) (s : State) : State := emitAll [b] s

/-- Back-pressure: SRC.SAMPLE and SRC.BYTE are not enabled while RUNNING with OUTQ non-empty (R205). -/
def inputWaits (s : State) : Bool := s.phase == .running && !s.outq.isEmpty

/-! ## Faults and the return from one -/

/-- raise Fault(code, info) (R262): the first fault is recorded, staged and in-flight bits are discarded, everything else is
left as it was; in FAULTED nothing changes. -/
def raiseFault (c : FaultCode) (info : Half) (s : State) : State :=
  if s.phase = .faulted then s
  else { s with phase := .faulted, fcode := faultNumber c, finfo := info, outq := [], slotFull := false, slotVal := .zero }

/-- ResetState() (R300), the only way out of FAULTED (R269). What the agents have issued and received is not block state and
stays (R301, log entry 9). -/
def resetState (s : State) : State :=
  { State.reset with
    hostQ := s.hostQ, sourceQ := s.sourceQ, consumerQ := s.consumerQ, sched := s.sched, port := s.port,
    responses := s.responses }

/-- The opcodes of the commands that respond (R261). -/
def opResponds (w : Word) : Bool :=
  opField w == 0x2#4 || opField w == 0x5#4 || opField w == 0x9#4

/-- IllegalWord(word) (R261). -/
def illegalWord (w : Word) (s : State) : State :=
  let s' := raiseFault .illegal (highHalf w) s
  if opResponds w then respond .fault s' else s'

/-! ## The producer's own steps -/

/-- The enabling condition of PUSH (R203). -/
def pushEnabled (s : State) : Bool :=
  (s.phase == .running || s.phase == .draining) && !s.outq.isEmpty && !s.slotFull

/-- The enabling condition of CLOSE (R204). -/
def closeEnabled (s : State) : Bool := s.phase == .draining && s.outq.isEmpty

/-- PUSH's effect (R203): the oldest staged bit moves into the slot. -/
def push (s : State) : State :=
  match s.outq with
  | [] => s
  | b :: rest => { s with slotVal := b, slotFull := true, outq := rest }

/-- CLOSE's effect (R204). -/
def close (s : State) : State := { s with closed := true, phase := .done }

/-- The producer's turn: PUSH or CLOSE, whichever is enabled (never both), or no step. -/
def producerStep (s : State) : State :=
  if pushEnabled s then push s else if closeEnabled s then close s else s

/-! ## Counting and thresholds -/

/-- min(c + 1, 2^32 - 1) (R36, R37). -/
def countUp (c : Word) : Word := BitVec.ofNat 32 (min (c.toNat + 1) (2 ^ 32 - 1))

/-- Thresholds(depth) (R101): multiply first, then divide with truncation; re-centred at depth 16; none at another depth. -/
def thresholds (depth : Nat) : Option (Int × Int) :=
  let mid := 2 ^ (depth - 1)
  let lo : Int := ((mid * 3 / 5 : Nat) : Int)
  let hi : Int := ((mid * 7 / 5 : Nat) : Int)
  if depth = 8 then some (lo, hi)
  else if depth = 16 then some (lo - (mid : Nat), hi - (mid : Nat))
  else none

/-! ## Register access -/

/-- Q_THLO as it reads (R35): thLo in 16-bit two's complement, 0 for an illegal depth. -/
def thloWord (s : State) : Half :=
  match thresholds (ctrlDepth s) with
  | some (lo, _) => BitVec.ofInt 16 lo
  | none => 0

/-- Q_THHI as it reads (R35). -/
def thhiWord (s : State) : Half :=
  match thresholds (ctrlDepth s) with
  | some (_, hi) => BitVec.ofInt 16 hi
  | none => 0

/-- ReadReg(i) (R230). -/
def readReg (r : Reg) (s : State) : Half :=
  match r with
  | .ctrl => s.ctrl
  | .status => statusWord s
  | .fcode => s.fcode.setWidth 16
  | .finfo => s.finfo
  | .rateLo => s.rate.extractLsb' 0 16
  | .rateHi => s.rate.extractLsb' 16 16
  | .dcdN1 => s.n1
  | .dcdN0 => s.n0
  | .hcdZmin => s.zmin
  | .hcdZmax => s.zmax
  | .hcdOmin => s.omin
  | .hcdOmax => s.omax
  | .tpdLong => s.tlong
  | .tpdShort => s.tshort
  | .tpdMargin => s.tmargin
  | .qThlo => thloWord s
  | .qThhi => thhiWord s
  | .runLo => s.run.extractLsb' 0 16
  | .runHi => s.run.extractLsb' 16 16
  | .spanLo => s.span.extractLsb' 0 16
  | .spanHi => s.span.extractLsb' 16 16
  | .tpdPos => tpdPosWord s

/-- WriteReg(i, d) (R230). A read-only register takes no write: CFG.WRITE faults before it comes here (R221). -/
def writeReg (r : Reg) (d : Half) (s : State) : State :=
  match r with
  | .ctrl => { s with ctrl := d &&& ctrlWriteMask }
  | .rateLo => { s with rate := s.rate.extractLsb' 16 16 ++ d }
  | .rateHi => { s with rate := d ++ s.rate.extractLsb' 0 16 }
  | .dcdN1 => { s with n1 := d }
  | .dcdN0 => { s with n0 := d }
  | .hcdZmin => { s with zmin := d }
  | .hcdZmax => { s with zmax := d }
  | .hcdOmin => { s with omin := d }
  | .hcdOmax => { s with omax := d }
  | .tpdLong => { s with tlong := d }
  | .tpdShort => { s with tshort := d }
  | .tpdMargin => { s with tmargin := d }
  | .status | .fcode | .finfo | .qThlo | .qThhi | .runLo | .runHi | .spanLo | .spanHi | .tpdPos => s

end Sys2Proof.Machine
end

