-- ==== Sys2Proof/Machine/Windows.lean ====
section
/-! DEFINITION. The thresholds CFG.DERIVE computes from RATE (R125, R148, R149) and the overlap checks of CTL.START (R150, R181).
The numeric literals are the source's, unaudited (R5, log entry 11). -/

namespace Sys2Proof.Machine

/-- DeriveFB(R) (R125): (N1, N0), or none when one exceeds 0xFFFF. The truncated subtraction of Nat is the clamp to 0. -/
def deriveFb (r : Nat) : Option (Half × Half) :=
  let n1 := r / 958 - 2
  let n0 := r / 1917 - 2
  if n1 > 0xFFFF ∨ n0 > 0xFFFF then none else some (BitVec.ofNat 16 n1, BitVec.ofNat 16 n0)

/-- ceil(p/q) for q > 0 (R11). -/
def ceilDiv (p q : Nat) : Nat := (p + q - 1) / q

/-- PctWindow(R, F) (R148): [ceil(2R/5F), floor(3R/5F)]. -/
def pctWindow (r f : Nat) : Nat × Nat := (ceilDiv (2 * r) (5 * f), 3 * r / (5 * f))

/-- LegacyWindow(R, F) (R149): [max(n - 2, 0), n + 2] with n = R div 2F. -/
def legacyWindow (r f : Nat) : Nat × Nat := (r / (2 * f) - 2, r / (2 * f) + 2)

/-- The four half-cycle window bounds as CFG.DERIVE writes them. -/
structure HcdWindows where
  zmin : Half
  zmax : Half
  omin : Half
  omax : Half
  deriving DecidableEq, Repr

/-- The end of DerivePct and DeriveLegacy (R148, R149): all four bounds, or none when one exceeds 0xFFFF. -/
def fitWindows (z o : Nat × Nat) : Option HcdWindows :=
  if z.1 > 0xFFFF ∨ z.2 > 0xFFFF ∨ o.1 > 0xFFFF ∨ o.2 > 0xFFFF then none
  else some
    { zmin := BitVec.ofNat 16 z.1, zmax := BitVec.ofNat 16 z.2,
      omin := BitVec.ofNat 16 o.1, omax := BitVec.ofNat 16 o.2 }

/-- DerivePct(R, F_Z, F_O) (R148). -/
def derivePct (r fz fo : Nat) : Option HcdWindows := fitWindows (pctWindow r fz) (pctWindow r fo)

/-- DeriveLegacy(R, F_Z, F_O) (R149). -/
def deriveLegacy (r fz fo : Nat) : Option HcdWindows := fitWindows (legacyWindow r fz) (legacyWindow r fo)

/-- The state with N1 and N0 written. -/
def writeFb (p : Half × Half) (s : State) : State := { s with n1 := p.1, n0 := p.2 }

/-- The state with the four half-cycle window registers written. -/
def writeWindows (h : HcdWindows) (s : State) : State :=
  { s with zmin := h.zmin, zmax := h.zmax, omin := h.omin, omax := h.omax }

/-- What a format writes from RATE (R88, R222), or none when a result exceeds 0xFFFF: every result is computed before
any register is written (R264). -/
def deriveState (f : Fmt) (s : State) : Option State :=
  match f with
  | .fb => (deriveFb s.rate.toNat).map (writeFb · s)
  | .kcs => (derivePct s.rate.toNat 2400 4800).map (writeWindows · s)
  | .msx => (derivePct s.rate.toNat 1200 2400).map (writeWindows · s)
  | .kcsLegacy => (deriveLegacy s.rate.toNat 2400 4800).map (writeWindows · s)
  | .msxLegacy => (deriveLegacy s.rate.toNat 1200 2400).map (writeWindows · s)

/-- Overlap (R150): both windows non-empty and intersecting. -/
def windowsOverlap (amin amax bmin bmax : Nat) : Bool :=
  decide (amin ≤ amax) && decide (bmin ≤ bmax) && decide (amin ≤ bmax) && decide (bmin ≤ amax)

/-- The Zero and One windows of the half-cycle demodulator overlap (R150). -/
def hcdOverlap (s : State) : Bool :=
  windowsOverlap s.zmin.toNat s.zmax.toNat s.omin.toNat s.omax.toNat

/-- The long and short windows of the timer-pulse demodulator intersect (R181), on unbounded integers. -/
def tpdOverlap (s : State) : Bool :=
  decide ((s.tlong.toNat : Int) - s.tmargin.toNat ≤ s.tshort.toNat + s.tmargin.toNat) &&
    decide ((s.tshort.toNat : Int) - s.tmargin.toNat ≤ s.tlong.toNat + s.tmargin.toNat)

end Sys2Proof.Machine
end

