-- ==== Sys2Proof/Machine/Cfg.lean ====
section
/-! DEFINITION. The configuration commands CFG.WRITE, CFG.READ and CFG.DERIVE (R220, R221, R222). -/

namespace Sys2Proof.Machine

/-- CFG.WRITE REG, DATA (R221): an illegal index is reported before the lock. -/
def execCfgWrite (reg : Byte) (data : Half) (s : State) : Host.Outcome State Fault Refusal :=
  if s.phase = .faulted then .next s
  else
    match rwRegOfIndex reg with
    | none => .next (raiseFault .illegal (cmdHigh (.cfgWrite reg data)) s)
    | some r =>
      if s.phase ≠ .idle then .next (raiseFault .cfgLocked (cmdHigh (.cfgWrite reg data)) s)
      else .next (writeReg r data s)

/-- CFG.READ REG (R220): legal in every phase; in FAULTED the raise of an illegal index changes nothing. -/
def execCfgRead (reg : Byte) (s : State) : Host.Outcome State Fault Refusal :=
  match regOfIndex reg with
  | none => .next (respond .fault (raiseFault .illegal (cmdHigh (.cfgRead reg)) s))
  | some r => .next (respond (.value (readReg r s)) s)

/-- CFG.DERIVE FMT (R222): all or nothing. -/
def execCfgDerive (fmt : BitVec 3) (s : State) : Host.Outcome State Fault Refusal :=
  if s.phase = .faulted then .next s
  else
    match fmtOfCode fmt with
    | none => .next (raiseFault .illegal (cmdHigh (.cfgDerive fmt)) s)
    | some f =>
      if s.phase ≠ .idle then .next (raiseFault .cfgLocked (cmdHigh (.cfgDerive fmt)) s)
      else
        match deriveState f s with
        | none => .next (raiseFault .derive 0 s)
        | some s' => .next s'

end Sys2Proof.Machine
end

