-- ==== Sys2Proof/Machine/Ctl.lean ====
section
/-! DEFINITION. The control commands CTL.START, CTL.ABORT and CTL.RESET (R223, R226, R227). -/

namespace Sys2Proof.Machine

/-- The first check of CTL.START that the configuration fails, with its FINFO: mode, encoding, depth, windows, in that order
(R223, R267). TPD mode ignores PCM and DEPTH; DCD mode has no window check. -/
def startFault (s : State) : Option (FaultCode × Half) :=
  let mode := ctrlMode s
  if ¬(mode = 1 ∨ mode = 2 ∨ mode = 3) then some (.mode, BitVec.ofNat 16 mode)
  else if (mode = 1 ∨ mode = 2) ∧ ctrlPcm s = false then some (.encoding, 0)
  else if (mode = 1 ∨ mode = 2) ∧ depthLegal s = false then some (.depth, BitVec.ofNat 16 (ctrlDepth s))
  else if mode = 2 ∧ hcdOverlap s = true then some (.window, 0)
  else if mode = 3 ∧ tpdOverlap s = true then some (.window, 0)
  else none

/-- CTL.START (R223). -/
def execCtlStart (s : State) : Host.Outcome State Fault Refusal :=
  if s.phase = .faulted then .next s
  else if s.phase ≠ .idle then .next (raiseFault .protocol (cmdHigh .ctlStart) s)
  else
    match startFault s with
    | some (c, info) => .next (raiseFault c info s)
    | none => .next { s with phase := .running }

/-- CTL.ABORT (R226): a fatal condition found outside the block; no effect in FAULTED. -/
def execCtlAbort (s : State) : Host.Outcome State Fault Refusal :=
  if s.phase = .faulted then .next s else .next (raiseFault .abort 0 s)

/-- CTL.RESET (R227): legal in every phase. -/
def execCtlReset (s : State) : Host.Outcome State Fault Refusal := .next (resetState s)

end Sys2Proof.Machine
end

