-- ==== Sys2Proof/Machine/Quantizer.lean ====
section
/-! DEFINITION. The sample quantizer (R100 to R109) and its command Q.CLASSIFY (R106). -/

namespace Sys2Proof.Machine

/-- Quantize(DATA, depth) (R102): both comparisons are strict; no level at a depth other than 8 and 16. -/
def quantize (data : Half) (depth : Nat) : Option Level :=
  match amplitude data depth, thresholds depth with
  | some a, some (thLo, thHi) =>
    some (if a < thLo then .low else if a > thHi then .high else .mid)
  | _, _ => none

/-- Q.CLASSIFY DATA (R106): legal in every phase but FAULTED, and it does not check PCM. -/
def execQClassify (data : Half) (s : State) : Host.Outcome State Fault Refusal :=
  if s.phase = .faulted then .next (respond .fault s)
  else
    match quantize data (ctrlDepth s) with
    | none => .next (respond .fault (raiseFault .depth (BitVec.ofNat 16 (ctrlDepth s)) s))
    | some l => .next (respond (.level l) s)

end Sys2Proof.Machine
end

