-- ==== Sys2Proof/Machine/Snk.lean ====
section
/-! DEFINITION. The consumer's command SNK.GET (R202). The producer's side of the channel, PUSH and CLOSE, is in Ops. -/

namespace Sys2Proof.Machine

/-- SNK.GET (R202): the slot first, then FAULT, then EOS; otherwise the consumer waits. It never raises a fault. -/
def execSnkGet (s : State) : Host.Outcome State Fault Refusal :=
  if s.slotFull then .next { respond (.bit s.slotVal) s with slotFull := false, slotVal := .zero }
  else if s.phase = .faulted then .next (respond .fault s)
  else if s.closed then .next (respond .eos s)
  else .next (wait .snkGet s)

end Sys2Proof.Machine
end

