-- ==== Sys2Proof/Machine/DurationCount.lean ====
section
/-! DEFINITION. The duration-count demodulator's step for one quantized sample (R120 to R129). -/

namespace Sys2Proof.Machine

/-- What a finished run of HIGH samples stands for (R121, R122): the bit 1 window is tested first; none is a discarded run. -/
def dcdClassify (n1 n0 : Half) (run : Nat) : Option BitCode :=
  if n1.toNat ≤ run then some .one else if n0.toNat ≤ run then some .zero else none

/-- DcdStep(lvl) (R122): HIGH counts; LOW and MID end a run, which is classified when it is not empty. -/
def dcdStep (l : Level) (s : State) : State :=
  match l with
  | .high => { s with run := countUp s.run }
  | .low | .mid =>
    if s.run = 0 then s
    else { emitAll (dcdClassify s.n1 s.n0 s.run.toNat).toList s with run := 0 }

end Sys2Proof.Machine
end

