-- ==== Sys2Proof/Machine/HalfCycle.lean ====
section
/-! DEFINITION. The half-cycle interval demodulator's step for one quantized sample (R140 to R156). -/

namespace Sys2Proof.Machine

/-- InZero(n) (R143), inclusive at both ends. -/
def inZero (s : State) (n : Nat) : Bool := decide (s.zmin.toNat ≤ n) && decide (n ≤ s.zmax.toNat)

/-- InOne(n) (R143), inclusive at both ends. -/
def inOne (s : State) (n : Nat) : Bool := decide (s.omin.toNat ≤ n) && decide (n ≤ s.omax.toNat)

/-- ZeroBranch() (R144): an ERROR bit first when a One half is pending. -/
def zeroBranch (s : State) : State :=
  match s.pend with
  | .pendingOne => { emit .zero (emit .error s) with pend := .idle }
  | .idle => { emit .zero s with pend := .idle }

/-- OneBranch() (R145): the first One interval is remembered, the second emits bit 1. -/
def oneBranch (s : State) : State :=
  match s.pend with
  | .idle => { s with pend := .pendingOne }
  | .pendingOne => { emit .one s with pend := .idle }

/-- NoiseBranch() (R146): CTRL.NCP says whether an interval in neither window clears PEND. -/
def noiseBranch (s : State) : State :=
  if ctrlNcp s then { s with pend := .idle } else s

/-- HcdClassify(n) (R142): the Zero window is tested first. -/
def hcdClassify (n : Nat) (s : State) : State :=
  if inZero s n then zeroBranch s else if inOne s n then oneBranch s else noiseBranch s

/-- HcdStep(lvl) (R141): the starting LOW sample is counted, the finalizing HIGH sample is not. -/
def hcdStep (l : Level) (s : State) : State :=
  match s.hph, l with
  | .waitLow, .low => { s with hph := .counting, span := 1 }
  | .waitLow, .mid => s
  | .waitLow, .high => s
  | .counting, .low => { s with span := countUp s.span }
  | .counting, .mid => { s with span := countUp s.span }
  | .counting, .high => { hcdClassify s.span.toNat s with span := 0, hph := .waitLow }

end Sys2Proof.Machine
end

