-- ==== Sys2Proof/Machine/Src.lean ====
section
/-! DEFINITION. The source's commands SRC.SAMPLE (R224, R123, R152) and SRC.EOF (R225, R126, R147, R180). SRC.BYTE is in TimerPulse. -/

namespace Sys2Proof.Machine

/-- SRC.SAMPLE DATA (R224). The stop `depthInRun` is met in no state a run reaches (R103, log entry 6). -/
def execSrcSample (data : Half) (s : State) : Host.Outcome State Fault Refusal :=
  if inputWaits s then .next (wait (.srcSample data) s)
  else if s.phase = .faulted then .next s
  else if s.phase ≠ .running ∨ ¬(ctrlMode s = 1 ∨ ctrlMode s = 2) then
    .next (raiseFault .protocol (cmdHigh (.srcSample data)) s)
  else
    match quantize data (ctrlDepth s) with
    | none => .fault .depthInRun
    | some l => .next (if ctrlMode s = 1 then dcdStep l s else hcdStep l s)

/-- SRC.EOF (R225): open state is discarded without emission, and the block drains. It never waits on OUTQ (R205). The stop
`modeInRun` is met in no state a run reaches (log entry 6). -/
def execSrcEof (s : State) : Host.Outcome State Fault Refusal :=
  if s.phase = .faulted then .next s
  else if s.phase ≠ .running then .next (raiseFault .protocol (cmdHigh .srcEof) s)
  else
    match ctrlMode s with
    | 1 => .next { s with run := 0, phase := .draining }
    | 2 => .next { s with span := 0, hph := .waitLow, pend := .idle, phase := .draining }
    | 3 =>
      if s.hidx < 18 then .next (raiseFault .magic (BitVec.ofNat 16 s.hidx) s)
      else .next { s with w := [], hbValid := false, hb := 0, phase := .draining }
    | _ => .fault .modeInRun

end Sys2Proof.Machine
end

