-- ==== Sys2Proof/Machine/TimerPulse.lean ====
section
/-! DEFINITION. The timer-pulse demodulator (R170 to R183) and its command SRC.BYTE (R171). -/

namespace Sys2Proof.Machine

/-- The bit cells of a window: the pairs (W[2i], W[2i+1]) (R175). -/
def cellsOf : List Half → List (Half × Half)
  | x :: y :: rest => (x, y) :: cellsOf rest
  | _ => []

/-- PolarityOK() (R177): every cell alternates, (0, 1) with REV = 0 and (1, 0) with REV = 1. -/
def polarityOk (rev : Bool) (win : List Half) : Bool :=
  (cellsOf win).all fun c => polarity c.1 == rev && polarity c.2 == !rev

/-- d lies in the window t ± m, inclusive, on unbounded integers (R176). -/
def withinMargin (t m : Half) (d : Nat) : Bool :=
  decide ((t.toNat : Int) - m.toNat ≤ d) && decide ((d : Int) ≤ t.toNat + m.toNat)

/-- CellClass(x, y) (R176): the sum of the two magnitudes, the long window tested first; none when it lies in neither. -/
def cellClass (s : State) (c : Half × Half) : Option BitCode :=
  let d := magnitude c.1 + magnitude c.2
  if withinMargin s.tlong s.tmargin d then some .one
  else if withinMargin s.tshort s.tmargin d then some .zero
  else none

/-- The classes of all the cells, none when one of them has no class (R175). -/
def cellClasses (s : State) : List (Half × Half) → Option (List BitCode)
  | [] => some []
  | c :: rest =>
    match cellClass s c, cellClasses s rest with
    | some b, some bs => some (b :: bs)
    | _, _ => none

/-- Bit 0 is the start marker 0 and bits 9 and 10 are the stop markers 1, 1 (R178). -/
def markersOk (bits : List BitCode) : Bool :=
  bits[0]? == some .zero && bits[9]? == some .one && bits[10]? == some .one

/-- What an attempt on a window of 22 values does (R175). -/
inductive Attempt where
  /-- The polarity check fails: slide by one value. -/
  | slideHalf
  /-- A cell has no class, or a marker is wrong: slide by two values. -/
  | slideFull
  /-- A frame of eleven bits. -/
  | frame (bits : List BitCode)
  deriving DecidableEq, Repr

/-- The outcome of TpdAttempt() on a window (R175): polarity, then classes, then markers. -/
def attemptOn (s : State) (win : List Half) : Attempt :=
  if polarityOk (ctrlRev s) win then
    match cellClasses s (cellsOf win) with
    | none => .slideFull
    | some bits => if markersOk bits then .frame bits else .slideFull
  else .slideHalf

/-- TpdAttempt() (R175). -/
def tpdAttempt (s : State) : State :=
  match attemptOn s s.w with
  | .slideHalf => { s with w := s.w.drop 1 }
  | .slideFull => { s with w := s.w.drop 2 }
  | .frame bits => { emitAll bits s with w := [] }

/-- TpdValue(v) (R175): an attempt runs as soon as the window holds 22 values. -/
def tpdValue (v : Half) (s : State) : State :=
  let s' := { s with w := s.w ++ [v] }
  if s'.w.length = 22 then tpdAttempt s' else s'

/-- TpdByte(b) (R172): the header first, HIDX staying at a byte that does not match; then big-endian pairs. -/
def tpdByte (b : Byte) (s : State) : State :=
  if s.hidx < 18 then
    if b ≠ headerByte s.hidx then
      raiseFault (if s.hidx = 15 then .version else .magic) (BitVec.ofNat 16 s.hidx) s
    else { s with hidx := s.hidx + 1 }
  else if s.hbValid = false then { s with hb := b, hbValid := true }
  else tpdValue (joinValue s.hb b) { s with hbValid := false }

/-- SRC.BYTE BYTE (R171): back-pressure before every other check (C13). -/
def execSrcByte (byte : Byte) (s : State) : Host.Outcome State Fault Refusal :=
  if inputWaits s then .next (wait (.srcByte byte) s)
  else if s.phase = .faulted then .next s
  else if s.phase ≠ .running ∨ ctrlMode s ≠ 3 then .next (raiseFault .protocol (cmdHigh (.srcByte byte)) s)
  else .next (tpdByte byte s)

end Sys2Proof.Machine
end

