-- ==== Sys2Proof/Machine/Dispatch.lean ====
section
/-! DEFINITION. The dispatch of a command to its meaning, one arm per row of the opcode table (R96). -/

namespace Sys2Proof.Machine

def exec (i : Instr) (s : State) : Host.Outcome State Fault Refusal :=
  match i with
  | .cfgWrite reg data => Sys2Proof.Machine.execCfgWrite reg data s
  | .cfgRead reg => Sys2Proof.Machine.execCfgRead reg s
  | .cfgDerive fmt => Sys2Proof.Machine.execCfgDerive fmt s
  | .ctlStart => Sys2Proof.Machine.execCtlStart s
  | .qClassify data => Sys2Proof.Machine.execQClassify data s
  | .srcSample data => Sys2Proof.Machine.execSrcSample data s
  | .srcByte byte => Sys2Proof.Machine.execSrcByte byte s
  | .srcEof => Sys2Proof.Machine.execSrcEof s
  | .snkGet => Sys2Proof.Machine.execSnkGet s
  | .ctlAbort => Sys2Proof.Machine.execCtlAbort s
  | .ctlReset => Sys2Proof.Machine.execCtlReset s

end Sys2Proof.Machine
end

