-- ==== Sys2Proof/Machine/Step.lean ====
section
/-! DEFINITION. One step of the whole system: the turn of one agent (R15, R20). The block fetches nothing (R21); where a processor
fetches, an agent's port accepts the oldest word that agent has issued. -/

namespace Sys2Proof.Machine

/-- The turn of an agent outside the block: its oldest word is accepted and executed, as a command or as an illegal word
(R89, R261). An agent that has issued nothing has no step. -/
def portStep (p : Port) (s : State) : Host.Outcome State Fault Refusal :=
  match takeWord p s with
  | none => .next s
  | some (w, s') =>
    match decodeWord w with
    | some i => exec i s'
    | none => .next (illegalWord w s')

/-- One atomic step: the next agent's turn (R15). -/
def step (s : State) : Host.Outcome State Fault Refusal :=
  match takeTurn s with
  | (.producer, s') => .next (producerStep s')
  | (.external p, s') => portStep p s'

/-- The state in which the command whose bits are `w` is the very next thing the block runs: its word is the oldest at the
port of the agent that issues such commands, and the next turn is that agent's (log entry 5). -/
def State.withFetchWord (s : State) (nbits w : Nat) : State :=
  let word := tableWord nbits w
  let p := issuingPort word
  { setPortQueue p (word :: portQueue p s) s with sched := .external p :: s.sched }

end Sys2Proof.Machine
end

