-- ==== Sys2Proof/Machine/Drain.lean ====
section
/-! DEFINITION. The consumer's loop `snk.drain` as a run of the whole system (R94, R316; log entry 21): the consumer issues SNK.GET,
waits for the response, and issues another one until a response has KIND other than 0. The other agents have their turns in
between, as the list of turns says. -/

namespace Sys2Proof.Machine

/-- The responses the consumer has received since `start` responses had been delivered in all. -/
def consumerResponsesSince (start : Nat) (s : State) : List Response :=
  ((s.responses.drop start).filter (·.1 == .consumer)).map (·.2)

/-- The consumer issues a command when none of its own is waiting at its port. -/
def issueWhenAnswered (i : Instr) (s : State) : State :=
  if s.consumerQ = [] then { s with consumerQ := [encode i] } else s

/-- A run that goes on from the next state, and stops where it has stopped. -/
def goOn (o : Host.Outcome State Fault Refusal) (run : State → Host.Outcome State Fault Refusal) :
    Host.Outcome State Fault Refusal :=
  match o with
  | .next t => run t
  | .fault r => .fault r
  | .refused r => .refused r

/-- At most `k` steps of a system whose consumer has been running `snk.drain` since `start` responses had been delivered; the run
ends when the drain does. -/
def drainFrom (start : Nat) : Nat → State → Host.Outcome State Fault Refusal
  | 0, s => .next s
  | k + 1, s =>
    match nextDrainCommand (consumerResponsesSince start s) with
    | none => .next s
    | some i => goOn (step (issueWhenAnswered i s)) (drainFrom start k)

/-- `snk.drain` (R94): the run of at most `k` steps in which the consumer repeats `snk.get` until a response with KIND other than 0.
What the consumer has issued before it is executed first. -/
def snkDrain : Nat → State → Host.Outcome State Fault Refusal
  | 0, s => .next s
  | k + 1, s =>
    if s.consumerQ = [] then drainFrom s.responses.length (k + 1) s
    else goOn (step s) (snkDrain k)

end Sys2Proof.Machine
end

