-- ==== Sys2Proof/Safety.lean ====
section
/-! DEFINITION. The terms claims are stated in: what two states share, what the next turn executes, the stream of bits on its way to
the consumer (R70), and the invariants of the reachable states (R201 and the rules each field cites). -/

namespace Sys2Proof.Machine

/-! ## What two states share -/

/-- `t` has the block state of `s` (every element of R23): they differ at most in what the agents have issued and received,
in the schedule and in the port. -/
def sameBlock (s t : State) : Prop :=
  t = { s with
    hostQ := t.hostQ, sourceQ := t.sourceQ, consumerQ := t.consumerQ, sched := t.sched, port := t.port,
    responses := t.responses }

/-- `t` has the configuration of `s`: every register CFG.WRITE and CFG.DERIVE can write (R26, R74). -/
def sameConfig (s t : State) : Prop :=
  t.ctrl = s.ctrl ∧ t.rate = s.rate ∧ t.n1 = s.n1 ∧ t.n0 = s.n0 ∧ t.zmin = s.zmin ∧ t.zmax = s.zmax ∧
    t.omin = s.omin ∧ t.omax = s.omax ∧ t.tlong = s.tlong ∧ t.tshort = s.tshort ∧ t.tmargin = s.tmargin

/-- `t` has the datapath state of `s`: what the demodulators own (R25), less OUTQ. -/
def sameDatapath (s t : State) : Prop :=
  t.run = s.run ∧ t.span = s.span ∧ t.hph = s.hph ∧ t.pend = s.pend ∧ t.hidx = s.hidx ∧ t.hbValid = s.hbValid ∧
    t.hb = s.hb ∧ t.w = s.w

/-! ## What the next turn executes -/

/-- The word the next step accepts, when the next turn is that of an agent that has issued one. -/
def nextWord (s : State) : Option Word :=
  match s.sched with
  | .external p :: _ => (portQueue p s).head?
  | _ => none

/-- The command the next step executes, when that word spells one (R89). -/
def nextCommand (s : State) : Option Instr := (nextWord s).bind decodeWord

/-! ## The stream of bits -/

/-- The bit codes delivered so far, oldest first (R70). -/
def delivered (s : State) : List BitCode :=
  s.responses.filterMap fun r => match r.2 with
    | .bit b => some b
    | _ => none

/-- The bit in the channel's slot, if there is one (R200). -/
def inSlot (s : State) : List BitCode := if s.slotFull then [s.slotVal] else []

/-- The bits that have been emitted and not discarded, in emission order: delivered, in the slot, staged (R70, R206). -/
def bitStream (s : State) : List BitCode := delivered s ++ inSlot s ++ s.outq

/-! ## Invariants -/

/-- The invariants of R201, one field for each. -/
structure ChannelInv (s : State) : Prop where
  /-- SLOT_FULL = 0 implies SLOT_VAL = 0. -/
  slotEmpty : s.slotFull = false → s.slotVal = .zero
  /-- PHASE = FAULTED implies SLOT_FULL = 0 and OUTQ = []. -/
  faultedEmpty : s.phase = .faulted → s.slotFull = false ∧ s.outq = []
  /-- PHASE = DONE implies CLOSED = 1. -/
  doneClosed : s.phase = .done → s.closed = true
  /-- CLOSED = 1 implies PHASE ∈ {DONE, FAULTED}. -/
  closedPhase : s.closed = true → s.phase = .done ∨ s.phase = .faulted
  /-- PHASE ∈ {IDLE, DONE, FAULTED} implies OUTQ = []. -/
  restingEmpty : s.phase = .idle ∨ s.phase = .done ∨ s.phase = .faulted → s.outq = []
  /-- |OUTQ| ≤ 11. -/
  outqBound : s.outq.length ≤ 11

/-- The invariants of the rest of the block. -/
structure BlockInv (s : State) : Prop where
  /-- The reserved bits of CTRL read 0 (R27). -/
  ctrlReserved : s.ctrl &&& 0xC0C0#16 = 0#16
  /-- HIDX is 0 to 18 (R40). -/
  hidxBound : s.hidx ≤ 18
  /-- Between steps the window holds fewer than 22 values: an attempt removes at least one (R175). -/
  windowBound : s.w.length < 22
  /-- No T77 value is assembled before the header is complete (R172). -/
  headerFirst : s.hidx < 18 → s.hbValid = false ∧ s.w = []
  /-- A span is counted exactly while HPH = COUNTING (R141). -/
  spanCounts : s.hph = .counting ↔ s.span ≠ 0
  /-- FCODE and FINFO are 0 until a fault is raised (R29, R30). -/
  noFault : s.phase ≠ .faulted → s.fcode = 0 ∧ s.finfo = 0
  /-- In FAULTED the code is one of those of R260. -/
  faultCode : s.phase = .faulted → 1 ≤ s.fcode.toNat ∧ s.fcode.toNat ≤ 11
  /-- A run goes on under a configuration that CTL.START accepts (R74, R103, R143). -/
  started : s.phase = .running ∨ s.phase = .draining ∨ s.phase = .done → startFault s = none
  /-- In IDLE nothing is in the slot and no fault is recorded (R51). -/
  idleSlot : s.phase = .idle → s.slotFull = false
  /-- RUN moves in DCD mode only (R25, R36), and is 0 before a run. -/
  runOwned : s.phase = .idle ∨ ctrlMode s ≠ 1 → s.run = 0
  /-- SPAN, HPH and PEND move in HCD mode only (R25, R37), and are at reset before a run. -/
  spanOwned : s.phase = .idle ∨ ctrlMode s ≠ 2 → s.span = 0 ∧ s.hph = .waitLow ∧ s.pend = .idle
  /-- The T77 state moves in TPD mode only (R25, R40), and is at reset before a run. -/
  tpdOwned : s.phase = .idle ∨ ctrlMode s ≠ 3 → s.hidx = 0 ∧ s.hbValid = false ∧ s.hb = 0 ∧ s.w = []

/-- The invariant of the block: it holds at reset and every step keeps it. -/
structure Inv (s : State) : Prop where
  channel : ChannelInv s
  block : BlockInv s

/-! ## The mirror of a T77 run -/

/-- A T77 value with its polarity inverted (R182). -/
def invertValue (v : Half) : Half := v ^^^ 0x8000#16

/-- The byte the mirrored run takes where the plain run takes `b`: the high byte of a value is inverted in bit 7, header
bytes and low bytes are the same (R182). -/
def mirrorByte (s : State) (b : Byte) : Byte :=
  if 18 ≤ s.hidx ∧ s.hbValid = false then b ^^^ 0x80#8 else b

/-- `t` is the state `s` with REV = 1 in place of REV = 0 and every value's polarity inverted (R182): the same in every other
element, OUTQ and the fault record among them. -/
def Mirror (s t : State) : Prop :=
  ctrlRev s = false ∧ t = { s with ctrl := s.ctrl ||| 0x0010#16, w := s.w.map invertValue, hb := t.hb } ∧
    (s.hbValid = true → t.hb = s.hb ^^^ 0x80#8)

/-! ## A draining consumer -/

/-- `n` rounds in which the producer has a turn and then the consumer has one. -/
def drainTurns : Nat → List Agent
  | 0 => []
  | n + 1 => .producer :: .external .consumer :: drainTurns n

end Sys2Proof.Machine
end

