-- ==== Sys2Proof/Certificates/Slice0/Obligations.lean ====
section
/-! DEFINITION. The statements for the provers. Each docstring names the rule of spec/ it formalises, and the log entry where a
clause rests on the model's own choice. "Answers" means that `exec` gives a next state. -/

open Sys2Proof Sys2Proof.Machine

/-! ## Encoding -/

/-- R81, R82, R96: no bit of an encoding is dropped, for every command and every operand value. -/
def Obligations.DecodeInvertsEncode : Prop :=
  ∀ i : Instr, decodeWord (encode i) = some i

/-- R89, R92: each word has one meaning, so a word that spells a command is that command's own word. -/
def Obligations.EncodeInvertsDecode : Prop :=
  ∀ (w : Word) (i : Instr), decodeWord w = some i → encode i = w

/-- R89: a word is illegal exactly when it matches no row; a word that spells a command matches the row of its own OP, which
is that command's row; no two rows share an OP and no word matches two rows. -/
def Obligations.WordIsIllegalExactlyWhenNoRowMatches : Prop :=
  (∀ w : Word, decodeWord w = none ↔ ∀ r ∈ opcodeTable, w &&& r.mask ≠ r.pattern) ∧
  (∀ (w : Word) (i : Instr), decodeWord w = some i →
    ∃ r ∈ opcodeTable, r.op = opField w ∧ w &&& r.mask = r.pattern ∧ r.mnemonic = rowMnemonic i) ∧
  (opcodeTable.map (·.op)).Nodup ∧
  (∀ w : Word, ∀ r₁ ∈ opcodeTable, ∀ r₂ ∈ opcodeTable,
    w &&& r₁.mask = r₁.pattern → w &&& r₂.mask = r₂.pattern → r₁ = r₂)

/-- R93: words written out from the spec's encoding decode to the commands they stand for. -/
def Obligations.WrittenOutWordsDecode : Prop :=
  decodeWord 0x10000821#32 = some (.cfgWrite 0x00 0x0821) ∧
  decodeWord 0x200C0000#32 = some (.cfgRead 0x0C) ∧
  decodeWord 0x30010000#32 = some (.cfgDerive 1) ∧
  decodeWord 0x40000000#32 = some .ctlStart ∧
  decodeWord 0x5000CCCC#32 = some (.qClassify 0xCCCC) ∧
  decodeWord 0x600000FF#32 = some (.srcSample 0x00FF) ∧
  decodeWord 0x70000058#32 = some (.srcByte 0x58) ∧
  decodeWord 0x80000000#32 = some .srcEof ∧
  decodeWord 0x90000000#32 = some .snkGet ∧
  decodeWord 0xA0000000#32 = some .ctlAbort ∧
  decodeWord 0xB0000000#32 = some .ctlReset ∧
  decodeWord 0x00000000#32 = none ∧
  decodeWord 0xC0000000#32 = none ∧
  decodeWord 0x20000001#32 = none ∧
  decodeWord 0x30080000#32 = none

/-! ## A step -/

/-- R15, R20 under log entries 2 and 3: on the turn of an agent whose oldest word spells a command, the step is that command
executed in the state with the turn spent, the word taken from its port, and that port the one the response goes to. -/
def Obligations.StepRunsTheDecodedCommand : Prop :=
  ∀ (s : State) (p : Port) (turns : List Agent) (w : Word) (ws : List Word) (i : Instr),
    s.sched = .external p :: turns → portQueue p s = w :: ws → decodeWord w = some i →
    step s = exec i { setPortQueue p ws { s with sched := turns } with port := p }

/-- R261 under log entries 2 and 4: an illegal word is accepted at once on any port; outside FAULTED it raises E_ILLEGAL with
FINFO = word[31:16]; in every phase the agent gets a FAULT response exactly when OP is that of a command that responds. -/
def Obligations.StepHandlesAnIllegalWord : Prop :=
  ∀ (s : State) (p : Port) (turns : List Agent) (w : Word) (ws : List Word),
    s.sched = .external p :: turns → portQueue p s = w :: ws → decodeWord w = none →
    ∃ t, step s = .next t ∧
      portQueue p t = ws ∧ t.sched = turns ∧
      (s.phase = .faulted → sameBlock s t) ∧
      (s.phase ≠ .faulted →
        sameBlock { s with
          phase := .faulted, fcode := 1, finfo := w.extractLsb' 16 16, outq := [], slotFull := false,
          slotVal := .zero } t) ∧
      (opField w = 0x2#4 ∨ opField w = 0x5#4 ∨ opField w = 0x9#4 → t.responses = s.responses ++ [(p, .fault)]) ∧
      (¬(opField w = 0x2#4 ∨ opField w = 0x5#4 ∨ opField w = 0x9#4) → t.responses = s.responses)

/-- R20, R203, R204 under log entry 2: on the producer's turn, and when no turn is listed, the step is the producer's; an agent
that has issued nothing has no step. -/
def Obligations.StepGivesTheProducerItsTurn : Prop :=
  (∀ (s : State) (turns : List Agent), s.sched = .producer :: turns →
    step s = .next (producerStep { s with sched := turns })) ∧
  (∀ s : State, s.sched = [] → step s = .next (producerStep s)) ∧
  (∀ (s : State) (p : Port) (turns : List Agent), s.sched = .external p :: turns → portQueue p s = [] →
    step s = .next { s with sched := turns })

/-- R203: PUSH is enabled under exactly the rule's condition, moves the oldest staged bit into the slot, and changes nothing
else; while it is enabled no command changes OUTQ or the slot but by a fault or a reset. -/
def Obligations.PushMovesTheOldestStagedBit : Prop :=
  (∀ s : State, pushEnabled s = true ↔
    (s.phase = .running ∨ s.phase = .draining) ∧ s.outq ≠ [] ∧ s.slotFull = false) ∧
  (∀ (s : State) (b : BitCode) (rest : List BitCode), pushEnabled s = true → s.outq = b :: rest →
    producerStep s = { s with slotVal := b, slotFull := true, outq := rest }) ∧
  (∀ (i : Instr) (s t : State), pushEnabled s = true → exec i s = .next t →
    (t.outq = s.outq ∧ t.slotFull = s.slotFull ∧ t.slotVal = s.slotVal) ∨ t.phase = .faulted ∨ i = .ctlReset)

/-- R204: CLOSE is enabled under exactly the rule's condition, closes the channel and ends the run, and changes nothing else;
a full slot stays full. -/
def Obligations.CloseEndsTheRun : Prop :=
  (∀ s : State, closeEnabled s = true ↔ s.phase = .draining ∧ s.outq = []) ∧
  (∀ s : State, closeEnabled s = true → producerStep s = { s with closed := true, phase := .done }) ∧
  (∀ s : State, pushEnabled s = false → closeEnabled s = false → producerStep s = s)

/-- R321 under log entry 2: a run of the model gets through the turns that are listed, and from there every step is the
producer's, so that a PUSH or CLOSE that is still enabled is then taken; the producer lists no turn. -/
def Obligations.EnabledProducerStepIsNotLeftUntaken : Prop :=
  (∀ s : State, Inv s →
    ∃ t, Sys2Proof.core.run s.sched.length s = .next t ∧ t.sched = [] ∧
      (∀ k : Nat, Sys2Proof.core.run k t = .next (producerStep^[k] t)) ∧
      (pushEnabled t = true ∨ closeEnabled t = true → producerStep t ≠ t)) ∧
  (∀ s : State, (producerStep s).sched = s.sched)

/-! ## Configuration -/

/-- R221, R230 (WriteReg), R27: in IDLE, CFG.WRITE of each read-write register stores the data in that register (CTRL less
its reserved bits, each half of RATE alone) and changes nothing else. -/
def Obligations.ConfigWriteStoresTheRegister : Prop :=
  ∀ (s : State) (d : Half), s.phase = .idle →
    exec (.cfgWrite 0x00 d) s = .next { s with ctrl := d &&& 0x3F3F#16 } ∧
    exec (.cfgWrite 0x04 d) s = .next { s with rate := s.rate.extractLsb' 16 16 ++ d } ∧
    exec (.cfgWrite 0x05 d) s = .next { s with rate := d ++ s.rate.extractLsb' 0 16 } ∧
    exec (.cfgWrite 0x06 d) s = .next { s with n1 := d } ∧
    exec (.cfgWrite 0x07 d) s = .next { s with n0 := d } ∧
    exec (.cfgWrite 0x08 d) s = .next { s with zmin := d } ∧
    exec (.cfgWrite 0x09 d) s = .next { s with zmax := d } ∧
    exec (.cfgWrite 0x0A d) s = .next { s with omin := d } ∧
    exec (.cfgWrite 0x0B d) s = .next { s with omax := d } ∧
    exec (.cfgWrite 0x0C d) s = .next { s with tlong := d } ∧
    exec (.cfgWrite 0x0D d) s = .next { s with tshort := d } ∧
    exec (.cfgWrite 0x0E d) s = .next { s with tmargin := d }

/-- R221, R26: CFG.WRITE has no effect in FAULTED; to a reserved or read-only index it raises E_ILLEGAL, before the lock is
looked at; to a read-write register outside IDLE it raises E_CFG_LOCKED. FINFO is the command's high half. -/
def Obligations.ConfigWriteRefusals : Prop :=
  ∀ (s : State) (reg : Byte) (d : Half),
    (s.phase = .faulted → exec (.cfgWrite reg d) s = .next s) ∧
    (s.phase ≠ .faulted → reg ∉ rwIndices →
      exec (.cfgWrite reg d) s = .next (raiseFault .illegal (0x10#8 ++ reg) s)) ∧
    (s.phase ≠ .faulted → s.phase ≠ .idle → reg ∈ rwIndices →
      exec (.cfgWrite reg d) s = .next (raiseFault .cfgLocked (0x10#8 ++ reg) s))

/-- R220, R230 (ReadReg), R68 under log entry 4: in every phase CFG.READ of a defined index responds with the register, and
changes nothing else. STATUS, Q_THLO, Q_THHI and TPD_POS have statements of their own. -/
def Obligations.ConfigReadReturnsTheRegister : Prop :=
  ∀ (s : State), ∀ p ∈ ([
      (0x00, s.ctrl), (0x01, readReg .status s), (0x02, 0x00#8 ++ s.fcode), (0x03, s.finfo),
      (0x04, s.rate.extractLsb' 0 16), (0x05, s.rate.extractLsb' 16 16), (0x06, s.n1), (0x07, s.n0),
      (0x08, s.zmin), (0x09, s.zmax), (0x0A, s.omin), (0x0B, s.omax), (0x0C, s.tlong), (0x0D, s.tshort),
      (0x0E, s.tmargin), (0x0F, readReg .qThlo s), (0x10, readReg .qThhi s), (0x11, s.run.extractLsb' 0 16),
      (0x12, s.run.extractLsb' 16 16), (0x13, s.span.extractLsb' 0 16), (0x14, s.span.extractLsb' 16 16),
      (0x15, readReg .tpdPos s)] : List (Byte × Half)),
    exec (.cfgRead p.1) s = .next { s with responses := s.responses ++ [(s.port, .value p.2)] }

/-- R220, R228 under log entry 4: CFG.READ of a reserved index responds FAULT in every phase, raises E_ILLEGAL outside FAULTED,
and changes no block state in FAULTED. -/
def Obligations.ConfigReadOfReservedIndexFaults : Prop :=
  ∀ (s : State) (reg : Byte), 0x15 < reg.toNat →
    (s.phase ≠ .faulted → exec (.cfgRead reg) s = .next
      { s with
        phase := .faulted, fcode := 1, finfo := 0x20#8 ++ reg, outq := [], slotFull := false, slotVal := .zero,
        responses := s.responses ++ [(s.port, .fault)] }) ∧
    (s.phase = .faulted → exec (.cfgRead reg) s = .next { s with responses := s.responses ++ [(s.port, .fault)] })

/-- R28: STATUS is the read-only register 0x01, and every field of it, in states whose OUTQ has at most 11 codes and whose empty
slot holds code 0 (R201). -/
def Obligations.StatusShowsItsFields : Prop :=
  regOfIndex 0x01 = some .status ∧ regWritable .status = false ∧
  ∀ s : State, ChannelInv s →
    let v := readReg .status s
    (∃ t, exec (.cfgRead 0x01) s = .next t ∧ sameBlock s t) ∧
    v.extractLsb' 0 3 =
      (match s.phase with
        | .idle => 0#3 | .running => 1#3 | .draining => 2#3 | .done => 3#3 | .faulted => 4#3) ∧
    v.getLsbD 3 = s.slotFull ∧
    v.extractLsb' 4 2 =
      (if s.slotFull then (match s.slotVal with | .zero => 0#2 | .one => 1#2 | .error => 2#2) else 0#2) ∧
    v.getLsbD 6 = s.closed ∧
    v.getLsbD 7 = decide (s.pend = .pendingOne) ∧
    v.getLsbD 8 = decide (s.hph = .counting) ∧
    (v.extractLsb' 9 4).toNat = s.outq.length ∧
    v.extractLsb' 13 3 = 0#3

/-- R40: the fields of TPD_POS, in states whose HIDX and window are within their ranges. -/
def Obligations.TpdPosShowsItsFields : Prop :=
  ∀ s : State, BlockInv s →
    let v := readReg .tpdPos s
    v.getLsbD 15 = s.hbValid ∧ v.extractLsb' 13 2 = 0#2 ∧ (v.extractLsb' 8 5).toNat = s.hidx ∧
    v.extractLsb' 5 3 = 0#3 ∧ (v.extractLsb' 0 5).toNat = s.w.length

/-- R35: Q_THLO and Q_THHI are the read-only registers 0x0F and 0x10, and read the thresholds of R101 for the current
CTRL.DEPTH, 0 for an illegal one. -/
def Obligations.ThresholdRegistersFollowDepth : Prop :=
  regOfIndex 0x0F = some .qThlo ∧ regWritable .qThlo = false ∧
  regOfIndex 0x10 = some .qThhi ∧ regWritable .qThhi = false ∧
  ∀ s : State,
    (∀ lo hi : Int, thresholds (ctrlDepth s) = some (lo, hi) →
      (readReg .qThlo s).toInt = lo ∧ (readReg .qThhi s).toInt = hi) ∧
    (ctrlDepth s = 8 → readReg .qThlo s = 0x004C#16 ∧ readReg .qThhi s = 0x00B3#16) ∧
    (ctrlDepth s = 16 → readReg .qThlo s = 0xCCCC#16 ∧ readReg .qThhi s = 0x3333#16) ∧
    (ctrlDepth s ≠ 8 → ctrlDepth s ≠ 16 → readReg .qThlo s = 0#16 ∧ readReg .qThhi s = 0#16)

/-- R125: CFG.DERIVE FB in IDLE. R ≥ 62,785,404 is the rule's own bound for E_DERIVE; below it N1 and N0 are the one-cycle
counts less 2, not below 0, and nothing else changes; the clamp to 0 changes no comparison with a count. -/
def Obligations.DeriveFbComputesTheThresholds : Prop :=
  ∀ s : State, s.phase = .idle →
    (62785404 ≤ s.rate.toNat → exec (.cfgDerive 0) s = .next (raiseFault .derive 0 s)) ∧
    (s.rate.toNat < 62785404 → ∃ n1 n0 : Half,
      exec (.cfgDerive 0) s = .next { s with n1 := n1, n0 := n0 } ∧
      (n1.toNat : Int) = max ((s.rate.toNat : Int) / 958 - 2) 0 ∧
      (n0.toNat : Int) = max ((s.rate.toNat : Int) / 1917 - 2) 0 ∧
      ∀ run : Nat, (n1.toNat ≤ run ↔ (s.rate.toNat : Int) / 958 - 2 ≤ run) ∧
        (n0.toNat ≤ run ↔ (s.rate.toNat : Int) / 1917 - 2 ≤ run))

/-- R148: CFG.DERIVE KCS and MSX in IDLE. When every bound fits in 16 bits, a count n lies in the Zero window exactly when
2R ≤ 5·F_Z·n ≤ 3R, in the One window exactly when 2R ≤ 5·F_O·n ≤ 3R (the exact rational window), and nothing else
changes. When the largest count of the Zero window exceeds 0xFFFF, E_DERIVE is raised: the other three bounds exceed it only
when that one does. -/
def Obligations.DerivePercentWindowsAreExact : Prop :=
  ∀ s : State, s.phase = .idle → ∀ p ∈ ([(1, 2400, 4800), (2, 1200, 2400)] : List (BitVec 3 × Nat × Nat)),
    let r := s.rate.toNat
    let tooBig := 5 * p.2.1 * 0x10000 ≤ 3 * r
    (tooBig → exec (.cfgDerive p.1) s = .next (raiseFault .derive 0 s)) ∧
    (¬tooBig → ∃ zmin zmax omin omax : Half,
      exec (.cfgDerive p.1) s = .next { s with zmin := zmin, zmax := zmax, omin := omin, omax := omax } ∧
      (∀ n : Nat, (zmin.toNat ≤ n ↔ 2 * r ≤ 5 * p.2.1 * n) ∧ (n ≤ zmax.toNat ↔ 5 * p.2.1 * n ≤ 3 * r)) ∧
      (∀ n : Nat, (omin.toNat ≤ n ↔ 2 * r ≤ 5 * p.2.2 * n) ∧ (n ≤ omax.toNat ↔ 5 * p.2.2 * n ≤ 3 * r)))

/-- R149: CFG.DERIVE KCS_LEGACY and MSX_LEGACY in IDLE: the nominal count less and plus 2, not below 0. A bound above 0xFFFF
raises E_DERIVE, which at these frequencies needs the Zero window's upper bound, the largest of the four. -/
def Obligations.DeriveLegacyWindows : Prop :=
  ∀ s : State, s.phase = .idle → ∀ p ∈ ([(3, 2400, 4800), (4, 1200, 2400)] : List (BitVec 3 × Nat × Nat)),
    let nz : Int := (s.rate.toNat : Int) / (2 * p.2.1)
    let no : Int := (s.rate.toNat : Int) / (2 * p.2.2)
    (nz + 2 > 0xFFFF → exec (.cfgDerive p.1) s = .next (raiseFault .derive 0 s)) ∧
    (nz + 2 ≤ 0xFFFF → ∃ zmin zmax omin omax : Half,
      exec (.cfgDerive p.1) s = .next { s with zmin := zmin, zmax := zmax, omin := omin, omax := omax } ∧
      (zmin.toNat : Int) = max (nz - 2) 0 ∧ (zmax.toNat : Int) = nz + 2 ∧
      (omin.toNat : Int) = max (no - 2) 0 ∧ (omax.toNat : Int) = no + 2)

/-- R222, R88: CFG.DERIVE has no effect in FAULTED; FMT 5 to 7 raises E_ILLEGAL, before the lock is looked at; a defined format
outside IDLE raises E_CFG_LOCKED. FINFO holds FMT in its low bits (R263). -/
def Obligations.DeriveRefusals : Prop :=
  ∀ (s : State) (fmt : BitVec 3),
    (s.phase = .faulted → exec (.cfgDerive fmt) s = .next s) ∧
    (s.phase ≠ .faulted → 4 < fmt.toNat →
      exec (.cfgDerive fmt) s = .next (raiseFault .illegal (0x300#12 ++ 0#1 ++ fmt) s)) ∧
    (s.phase ≠ .faulted → s.phase ≠ .idle → fmt.toNat ≤ 4 →
      exec (.cfgDerive fmt) s = .next (raiseFault .cfgLocked (0x300#12 ++ 0#1 ++ fmt) s))

/-- R154: the windows CFG.DERIVE KCS or MSX leaves never overlap for R > 0, the One window lying below the Zero window; for R = 0 both are [0, 0], they overlap, and a
CTL.START in HCD mode that passes the checks before it raises E_WINDOW. -/
def Obligations.PercentWindowsNeverOverlap : Prop :=
  ∀ (s t : State) (fmt : BitVec 3), s.phase = .idle → fmt = 1 ∨ fmt = 2 → exec (.cfgDerive fmt) s = .next t →
    t.phase = .idle →
    (s.rate ≠ 0 → t.omax.toNat < t.zmin.toNat ∧ ¬∃ n : Nat, t.zmin.toNat ≤ n ∧ n ≤ t.zmax.toNat ∧ t.omin.toNat ≤ n ∧ n ≤ t.omax.toNat) ∧
    (s.rate = 0 → t.zmin = 0 ∧ t.zmax = 0 ∧ t.omin = 0 ∧ t.omax = 0 ∧
      (ctrlMode t = 2 → ctrlPcm t = true → depthLegal t = true →
        exec .ctlStart t = .next (raiseFault .window 0 t)))

/-! ## Start, abort, reset -/

/-- R223: CTL.START from IDLE under a configuration each mode accepts gives RUNNING and changes nothing else. TPD mode ignores
PCM and DEPTH, DCD mode checks no window. -/
def Obligations.StartBeginsTheRun : Prop :=
  ∀ s : State, s.phase = .idle →
    (ctrlMode s = 1 ∨ ctrlMode s = 2 → ctrlPcm s = true ∧ (ctrlDepth s = 8 ∨ ctrlDepth s = 16)) →
    (ctrlMode s = 2 →
      ¬∃ n : Nat, s.zmin.toNat ≤ n ∧ n ≤ s.zmax.toNat ∧ s.omin.toNat ≤ n ∧ n ≤ s.omax.toNat) →
    (ctrlMode s = 3 →
      ¬∃ d : Int, (s.tlong.toNat : Int) - s.tmargin.toNat ≤ d ∧ d ≤ s.tlong.toNat + s.tmargin.toNat ∧
        (s.tshort.toNat : Int) - s.tmargin.toNat ≤ d ∧ d ≤ s.tshort.toNat + s.tmargin.toNat) →
    ctrlMode s = 1 ∨ ctrlMode s = 2 ∨ ctrlMode s = 3 →
    exec .ctlStart s = .next { s with phase := .running }

/-- R223, R267, R150, R181: the checks of CTL.START in their order, each reached when the ones before it pass; and no effect in
FAULTED. -/
def Obligations.StartChecksInOrder : Prop :=
  ∀ s : State,
    (s.phase = .faulted → exec .ctlStart s = .next s) ∧
    (s.phase ≠ .faulted → s.phase ≠ .idle → exec .ctlStart s = .next (raiseFault .protocol 0x4000#16 s)) ∧
    (s.phase = .idle →
      (ctrlMode s = 0 ∨ 4 ≤ ctrlMode s →
        exec .ctlStart s = .next (raiseFault .mode (BitVec.ofNat 16 (ctrlMode s)) s)) ∧
      (ctrlMode s = 1 ∨ ctrlMode s = 2 →
        (ctrlPcm s = false → exec .ctlStart s = .next (raiseFault .encoding 0 s)) ∧
        (ctrlPcm s = true → ctrlDepth s ≠ 8 → ctrlDepth s ≠ 16 →
          exec .ctlStart s = .next (raiseFault .depth (BitVec.ofNat 16 (ctrlDepth s)) s))) ∧
      (ctrlMode s = 2 → ctrlPcm s = true → ctrlDepth s = 8 ∨ ctrlDepth s = 16 →
        s.zmin.toNat ≤ s.zmax.toNat → s.omin.toNat ≤ s.omax.toNat →
        s.zmin.toNat ≤ s.omax.toNat → s.omin.toNat ≤ s.zmax.toNat →
        exec .ctlStart s = .next (raiseFault .window 0 s)) ∧
      (ctrlMode s = 3 →
        (s.tlong.toNat : Int) - s.tmargin.toNat ≤ s.tshort.toNat + s.tmargin.toNat →
        (s.tshort.toNat : Int) - s.tmargin.toNat ≤ s.tlong.toNat + s.tmargin.toNat →
        exec .ctlStart s = .next (raiseFault .window 0 s)))

/-- R262: raising a fault outside FAULTED changes exactly the elements of the rule; in FAULTED it changes nothing. The code
recorded is the cause's number in R260. -/
def Obligations.RaiseFaultRecordsTheFirstFault : Prop :=
  (∀ (c : FaultCode) (info : Half) (s : State),
    (s.phase ≠ .faulted → raiseFault c info s =
      { s with
        phase := .faulted, fcode := faultNumber c, finfo := info, outq := [], slotFull := false, slotVal := .zero }) ∧
    (s.phase = .faulted → raiseFault c info s = s)) ∧
  [FaultCode.illegal, .cfgLocked, .protocol, .mode, .encoding, .depth, .window, .derive, .magic, .version, .abort].map
    faultNumber = [1, 2, 3, 4, 5, 6, 7, 8, 9, 10, 11]

/-- R226: CTL.ABORT raises E_ABORT with FINFO 0 in every phase but FAULTED, where it has no effect. -/
def Obligations.AbortRaisesItsFault : Prop :=
  encode .ctlAbort = 0xA0000000#32 ∧
  ∀ s : State,
    (s.phase ≠ .faulted → exec .ctlAbort s = .next
      { s with phase := .faulted, fcode := 11, finfo := 0, outq := [], slotFull := false, slotVal := .zero }) ∧
    (s.phase = .faulted → exec .ctlAbort s = .next s)

/-- R300: CTL.RESET in every phase gives every element its reset value, and so the same block state as power-on reset. -/
def Obligations.ResetRestoresEveryElement : Prop :=
  ∀ s : State, ∃ t, exec .ctlReset s = .next t ∧ sameBlock State.reset t ∧
    t.phase = .idle ∧ t.ctrl = 0x0000#16 ∧ t.fcode = 0 ∧ t.finfo = 0x0000#16 ∧ t.rate = 0 ∧ t.n1 = 0 ∧ t.n0 = 0 ∧
    t.zmin = 0 ∧ t.zmax = 0 ∧ t.omin = 0 ∧ t.omax = 0 ∧ t.tlong = 0x0030#16 ∧ t.tshort = 0x0016#16 ∧
    t.tmargin = Config.tpdMarginReset ∧ t.run = 0 ∧ t.span = 0 ∧ t.hph = .waitLow ∧ t.pend = .idle ∧ t.hidx = 0 ∧
    t.hbValid = false ∧ t.hb = 0 ∧ t.w = [] ∧ t.outq = [] ∧ t.slotFull = false ∧ t.slotVal = .zero ∧
    t.closed = false

/-- R52: what the computed registers read after reset. -/
def Obligations.ResetStateReadsZero : Prop :=
  readReg .status State.reset = 0 ∧ readReg .tpdPos State.reset = 0 ∧ readReg .qThlo State.reset = 0 ∧
    readReg .qThhi State.reset = 0

/-! ## The quantizer -/

/-- R107: the threshold table, at both depths and over the whole amplitude range, and its boundaries as 16-bit DATA. -/
def Obligations.QuantizerFollowsTheThresholdTable : Prop :=
  (∀ d : Half,
    (quantize d 8 = some .low ↔ (d.extractLsb' 0 8).toNat ≤ 75) ∧
    (quantize d 8 = some .mid ↔ 76 ≤ (d.extractLsb' 0 8).toNat ∧ (d.extractLsb' 0 8).toNat ≤ 179) ∧
    (quantize d 8 = some .high ↔ 180 ≤ (d.extractLsb' 0 8).toNat)) ∧
  (∀ d : Half,
    (quantize d 16 = some .low ↔ d.toInt ≤ -13109) ∧
    (quantize d 16 = some .mid ↔ -13108 ≤ d.toInt ∧ d.toInt ≤ 13107) ∧
    (quantize d 16 = some .high ↔ 13108 ≤ d.toInt)) ∧
  thresholds 8 = some (76, 179) ∧ thresholds 16 = some (-13108, 13107) ∧
  quantize 0xCCCB 16 = some .low ∧ quantize 0xCCCC 16 = some .mid ∧ quantize 0x3333 16 = some .mid ∧
  quantize 0x3334 16 = some .high

/-- R106 under log entry 4: Q.CLASSIFY responds with the level and changes nothing else, in every phase but FAULTED and
whatever PCM is; with an illegal depth it raises E_DEPTH and responds FAULT; in FAULTED it responds FAULT. -/
def Obligations.ClassifyResponds : Prop :=
  ∀ (s : State) (d : Half),
    (s.phase ≠ .faulted → ctrlDepth s = 8 ∨ ctrlDepth s = 16 → ∃ l, quantize d (ctrlDepth s) = some l ∧
      exec (.qClassify d) s = .next { s with responses := s.responses ++ [(s.port, .level l)] }) ∧
    (s.phase ≠ .faulted → ctrlDepth s ≠ 8 → ctrlDepth s ≠ 16 → exec (.qClassify d) s = .next
      { s with
        phase := .faulted, fcode := 6, finfo := BitVec.ofNat 16 (ctrlDepth s), outq := [], slotFull := false,
        slotVal := .zero, responses := s.responses ++ [(s.port, .fault)] }) ∧
    (s.phase = .faulted → exec (.qClassify d) s = .next { s with responses := s.responses ++ [(s.port, .fault)] })

/-- R108: the level a run uses for a sample is the one Q.CLASSIFY gives for the same DATA and DEPTH, applied once, before the
demodulator's step. -/
def Obligations.RunQuantizesAsClassifyDoes : Prop :=
  ∀ (s : State) (d : Half), s.phase = .running → s.outq = [] → ctrlDepth s = 8 ∨ ctrlDepth s = 16 →
    ∃ l, exec (.qClassify d) s = .next (respond (.level l) s) ∧
      (ctrlMode s = 1 → exec (.srcSample d) s = .next (dcdStep l s)) ∧
      (ctrlMode s = 2 → exec (.srcSample d) s = .next (hcdStep l s))

/-! ## The duration-count demodulator -/

/-- R122, R127, R128: a sample in DCD mode, from its level: HIGH counts, saturating; LOW or MID ends a run, which gives 1 from
N1 on, else 0 from N0 on, else nothing; without a run nothing changes. No other element changes. -/
def Obligations.DcdSampleStep : Prop :=
  ∀ (s : State) (d : Half) (l : Level), s.phase = .running → s.outq = [] → ctrlMode s = 1 →
    quantize d (ctrlDepth s) = some l →
    (l = .high → exec (.srcSample d) s =
      .next { s with run := BitVec.ofNat 32 (min (s.run.toNat + 1) (2 ^ 32 - 1)) }) ∧
    (l = .low ∨ l = .mid →
      (s.run = 0 → exec (.srcSample d) s = .next s) ∧
      (s.run ≠ 0 → s.n1.toNat ≤ s.run.toNat →
        exec (.srcSample d) s = .next { s with run := 0, outq := [.one] }) ∧
      (s.run ≠ 0 → s.run.toNat < s.n1.toNat → s.n0.toNat ≤ s.run.toNat →
        exec (.srcSample d) s = .next { s with run := 0, outq := [.zero] }) ∧
      (s.run ≠ 0 → s.run.toNat < s.n1.toNat → s.run.toNat < s.n0.toNat →
        exec (.srcSample d) s = .next { s with run := 0 }))

/-- R129: a DCD step emits at most one bit code, and never ERROR. -/
def Obligations.DcdEmitsAtMostOneBit : Prop :=
  ∀ (l : Level) (s : State), ∃ bs, (dcdStep l s).outq = s.outq ++ bs ∧ bs.length ≤ 1 ∧ BitCode.error ∉ bs

/-- R124, R156: a counter that saturates at 2^32 - 1 classifies every run and every span as an unbounded counter does, whatever
the thresholds; and the counter is that saturated count. -/
def Obligations.SaturationNeverChangesABit : Prop :=
  (∀ n : Nat, countUp (BitVec.ofNat 32 (min n (2 ^ 32 - 1))) = BitVec.ofNat 32 (min (n + 1) (2 ^ 32 - 1))) ∧
  (∀ (n1 n0 : Half) (n : Nat), dcdClassify n1 n0 (min n (2 ^ 32 - 1)) = dcdClassify n1 n0 n) ∧
  (∀ (s : State) (n : Nat), hcdClassify (min n (2 ^ 32 - 1)) s = hcdClassify n s)

/-! ## The half-cycle demodulator -/

/-- R141: a sample in HCD mode, from its level. A span starts at a LOW, which is counted; LOW and MID extend it, saturating; HIGH
classifies it and is not counted; MID and HIGH before a LOW change nothing. -/
def Obligations.HcdSampleStep : Prop :=
  ∀ (s : State) (d : Half) (l : Level), s.phase = .running → s.outq = [] → ctrlMode s = 2 →
    quantize d (ctrlDepth s) = some l →
    (s.hph = .waitLow → l = .low → exec (.srcSample d) s = .next { s with hph := .counting, span := 1 }) ∧
    (s.hph = .waitLow → l = .mid ∨ l = .high → exec (.srcSample d) s = .next s) ∧
    (s.hph = .counting → l = .low ∨ l = .mid → exec (.srcSample d) s =
      .next { s with span := BitVec.ofNat 32 (min (s.span.toNat + 1) (2 ^ 32 - 1)) }) ∧
    (s.hph = .counting → l = .high → exec (.srcSample d) s =
      .next { hcdClassify s.span.toNat s with span := 0, hph := .waitLow })

/-- R142, R144, R145, R146, R151: the lookback machine, every cell of it, with nothing but OUTQ and PEND changed. The Zero
window is tested first. -/
def Obligations.LookbackMachineFollowsItsTable : Prop :=
  ∀ (s : State) (n : Nat),
    let zero := s.zmin.toNat ≤ n ∧ n ≤ s.zmax.toNat
    let one := s.omin.toNat ≤ n ∧ n ≤ s.omax.toNat
    (s.pend = .idle →
      (zero → hcdClassify n s = { s with outq := s.outq ++ [.zero] }) ∧
      (¬zero → one → hcdClassify n s = { s with pend := .pendingOne }) ∧
      (¬zero → ¬one → hcdClassify n s = s)) ∧
    (s.pend = .pendingOne →
      (zero → hcdClassify n s = { s with outq := s.outq ++ [.error, .zero], pend := .idle }) ∧
      (¬zero → one → hcdClassify n s = { s with outq := s.outq ++ [.one], pend := .idle }) ∧
      (¬zero → ¬one → ctrlNcp s = false → hcdClassify n s = s) ∧
      (¬zero → ¬one → ctrlNcp s = true → hcdClassify n s = { s with pend := .idle }))

/-- R153: an HCD step emits at most two bit codes, ERROR only as the pair ERROR, 0, and that only when a One half is pending and
a Zero span finalizes. -/
def Obligations.HcdErrorOnlyBeforeAZero : Prop :=
  ∀ (l : Level) (s : State), ∃ bs, (hcdStep l s).outq = s.outq ++ bs ∧ bs.length ≤ 2 ∧
    (BitCode.error ∈ bs → bs = [.error, .zero] ∧ s.pend = .pendingOne ∧ s.hph = .counting ∧ l = .high ∧
      s.zmin.toNat ≤ s.span.toNat ∧ s.span.toNat ≤ s.zmax.toNat)

/-- R143, R150: during a run in HCD mode no count lies in both windows. -/
def Obligations.AtMostOneWindowHoldsDuringARun : Prop :=
  ∀ (s : State) (n : Nat), Inv s → s.phase = .running → ctrlMode s = 2 → ¬(inZero s n = true ∧ inOne s n = true)

/-! ## The timer-pulse demodulator -/

/-- R172, R173: the byte step in TPD mode against the 18 header bytes. A header byte that matches advances HIDX; one that does
not faults, with E_VERSION at index 15 and E_MAGIC elsewhere, FINFO the index and HIDX kept; nothing is emitted before the
header completes; after the header, bytes pair up big-endian. That the header's characters are the ASCII bytes listed here
is from general knowledge, by the spec's own mark in R173 (log entry 16). -/
def Obligations.ByteStepChecksTheHeaderThenPairs : Prop :=
  let hdr : List Byte :=
    [0x58, 0x4D, 0x37, 0x20, 0x54, 0x41, 0x50, 0x45, 0x20, 0x49, 0x4D, 0x41, 0x47, 0x45, 0x20, 0x30, 0x00, 0x00]
  t77Header = hdr ∧
  ∀ (s : State) (b : Byte), s.phase = .running → ctrlMode s = 3 → s.outq = [] →
    (s.hidx < 18 → hdr[s.hidx]? = some b →
      exec (.srcByte b) s = .next { s with hidx := s.hidx + 1 }) ∧
    (s.hidx < 18 → hdr[s.hidx]? ≠ some b → s.hidx = 15 →
      exec (.srcByte b) s = .next (raiseFault .version 15 s)) ∧
    (s.hidx < 18 → hdr[s.hidx]? ≠ some b → s.hidx ≠ 15 →
      exec (.srcByte b) s = .next (raiseFault .magic (BitVec.ofNat 16 s.hidx) s)) ∧
    (∀ t, s.hidx < 18 → exec (.srcByte b) s = .next t → t.outq = []) ∧
    (18 ≤ s.hidx → s.hbValid = false → exec (.srcByte b) s = .next { s with hb := b, hbValid := true }) ∧
    (18 ≤ s.hidx → s.hbValid = true → exec (.srcByte b) s = .next (tpdValue (s.hb ++ b) { s with hbValid := false }))

/-- R176, R174: the class of a cell from the sum of its two 15-bit magnitudes, the long window first, both inclusive, on unbounded
integers. That a value's magnitude is its bits 14..0 is from general knowledge, by the spec's own mark in R174 (log entry 16). -/
def Obligations.CellClassByTheSumOfMagnitudes : Prop :=
  ∀ (s : State) (x y : Half),
    let d : Int := (x.toNat % 0x8000 + y.toNat % 0x8000 : Nat)
    let long := (s.tlong.toNat : Int) - s.tmargin.toNat ≤ d ∧ d ≤ s.tlong.toNat + s.tmargin.toNat
    let short := (s.tshort.toNat : Int) - s.tmargin.toNat ≤ d ∧ d ≤ s.tshort.toNat + s.tmargin.toNat
    (long → cellClass s (x, y) = some .one) ∧
    (¬long → short → cellClass s (x, y) = some .zero) ∧
    (¬long → ¬short → cellClass s (x, y) = none)

/-- R175, R177, R178: a value that does not fill the window is only appended. The value that fills it triggers one attempt: a cell
of the wrong polarity slides the window by one value; else a cell without a class, or a wrong marker, slides it by two;
else the eleven bits are emitted in cell order and the window is emptied. Nothing else changes. That a value's polarity is its
bit 15 is from general knowledge, by the spec's own mark in R174 (log entry 16). -/
def Obligations.WindowAttemptDecidesTheFrame : Prop :=
  ∀ (s : State) (v : Half),
    let win := s.w ++ [v]
    let x := fun i => win.getD (2 * i) 0
    let y := fun i => win.getD (2 * i + 1) 0
    let polar := ∀ i < 11, (x i).getLsbD 15 = ctrlRev s ∧ (y i).getLsbD 15 = !ctrlRev s
    (s.w.length ≠ 21 → tpdValue v s = { s with w := win }) ∧
    (s.w.length = 21 →
      (¬polar → tpdValue v s = { s with w := win.drop 1 }) ∧
      (polar → (∃ i < 11, cellClass s (x i, y i) = none) → tpdValue v s = { s with w := win.drop 2 }) ∧
      (∀ bits : List BitCode, polar → bits.length = 11 →
        (∀ i < 11, cellClass s (x i, y i) = some (bits.getD i .error)) →
        (bits.getD 0 .error = .zero ∧ bits.getD 9 .error = .one ∧ bits.getD 10 .error = .one →
          tpdValue v s = { s with w := [], outq := s.outq ++ bits }) ∧
        (¬(bits.getD 0 .error = .zero ∧ bits.getD 9 .error = .one ∧ bits.getD 10 .error = .one) →
          tpdValue v s = { s with w := win.drop 2 })))

/-- R183: an attempt on a full window that fails removes one or two values and emits nothing; one that succeeds removes all 22
and emits eleven codes, none of them ERROR. Nothing else changes. -/
def Obligations.ResynchronisationAlwaysAdvances : Prop :=
  ∀ s : State, s.w.length = 22 →
    (tpdAttempt s = { s with w := s.w.drop 1 } ∨ tpdAttempt s = { s with w := s.w.drop 2 }) ∨
    ∃ bits, tpdAttempt s = { s with w := [], outq := s.outq ++ bits } ∧ bits.length = 11 ∧ BitCode.error ∉ bits

/-- R182: decoding a value stream with REV = 0 and the stream with bit 15 of every value inverted with REV = 1 emits the same
sequence; and, byte by byte, the two runs go through mirrored states, and so raise the same faults too. `mirrorByte` inverts
bit 7 of a value's high byte. -/
def Obligations.PolarityInversionDecodesIdentically : Prop :=
  (∀ (s s' : State) (vs : List Half), Mirror s s' →
    (vs.foldl (fun u v => tpdValue v u) s).outq =
      ((vs.map invertValue).foldl (fun u v => tpdValue v u) s').outq) ∧
  (∀ (s s' t : State) (b : Byte), Mirror s s' → s.phase = .running → ctrlMode s = 3 → s.outq = [] →
    exec (.srcByte b) s = .next t →
    ∃ t', exec (.srcByte (mirrorByte s b)) s' = .next t' ∧ Mirror t t')

/-! ## End of input, refusals, back-pressure -/

/-- R126, R147, R180: SRC.EOF in a run discards the open state of the mode without emission and drains; in TPD mode before the
header is complete it raises E_MAGIC with the number of header bytes received. -/
def Obligations.EndOfInputDiscardsOpenState : Prop :=
  ∀ s : State, s.phase = .running →
    (ctrlMode s = 1 → exec .srcEof s = .next { s with run := 0, phase := .draining }) ∧
    (ctrlMode s = 2 → exec .srcEof s =
      .next { s with span := 0, hph := .waitLow, pend := .idle, phase := .draining }) ∧
    (ctrlMode s = 3 → s.hidx < 18 → exec .srcEof s = .next (raiseFault .magic (BitVec.ofNat 16 s.hidx) s)) ∧
    (ctrlMode s = 3 → 18 ≤ s.hidx → exec .srcEof s =
      .next { s with w := [], hbValid := false, hb := 0, phase := .draining })

/-- R224, R171, R225, R228, R263: input outside RUNNING, or in a mode that takes no such input, raises E_PROTOCOL with the
command's high half; in FAULTED it has no effect. -/
def Obligations.InputOutOfPlaceRaisesProtocol : Prop :=
  ∀ (s : State) (d : Half) (b : Byte),
    (s.phase = .faulted →
      exec (.srcSample d) s = .next s ∧ exec (.srcByte b) s = .next s ∧ exec .srcEof s = .next s) ∧
    (s.phase ≠ .faulted → s.phase ≠ .running →
      exec (.srcSample d) s = .next (raiseFault .protocol 0x6000#16 s) ∧
      exec (.srcByte b) s = .next (raiseFault .protocol 0x7000#16 s) ∧
      exec .srcEof s = .next (raiseFault .protocol 0x8000#16 s)) ∧
    (s.phase = .running → s.outq = [] →
      (ctrlMode s ≠ 1 → ctrlMode s ≠ 2 → exec (.srcSample d) s = .next (raiseFault .protocol 0x6000#16 s)) ∧
      (ctrlMode s ≠ 3 → exec (.srcByte b) s = .next (raiseFault .protocol 0x7000#16 s)))

/-- R205, R13 under log entries 2 and 3: while RUNNING with OUTQ non-empty, a sample or a byte (in any mode) waits: the step leaves
the word at its port and changes nothing but the turn. No other command waits on OUTQ: SNK.GET waits exactly on its own
condition, and the rest never. -/
def Obligations.BackPressureHoldsInputAtItsPort : Prop :=
  (∀ (s : State) (p : Port) (turns : List Agent) (w : Word) (ws : List Word) (i : Instr),
    s.sched = .external p :: turns → portQueue p s = w :: ws → decodeWord w = some i →
    (∃ d, i = .srcSample d) ∨ (∃ b, i = .srcByte b) → s.phase = .running → s.outq ≠ [] →
    step s = .next { s with sched := turns, port := p }) ∧
  (∀ (s t : State) (i : Instr) (p : Port), exec i s = .next t →
    (∀ d, i = .srcSample d → s.phase ≠ .running ∨ s.outq = []) →
    (∀ b, i = .srcByte b → s.phase ≠ .running ∨ s.outq = []) →
    (i = .snkGet → s.slotFull = true ∨ s.phase = .faulted ∨ s.closed = true) →
    portQueue p t = portQueue p s)

/-! ## The channel -/

/-- R202 under log entries 3 and 4: the four cases of SNK.GET in their order; it never raises a fault. -/
def Obligations.SinkGetTakesTheNextBit : Prop :=
  ∀ s : State,
    (s.slotFull = true → exec .snkGet s = .next
      { s with
        slotFull := false, slotVal := .zero, responses := s.responses ++ [(s.port, .bit s.slotVal)] }) ∧
    (s.slotFull = false → s.phase = .faulted →
      exec .snkGet s = .next { s with responses := s.responses ++ [(s.port, .fault)] }) ∧
    (s.slotFull = false → s.phase ≠ .faulted → s.closed = true →
      exec .snkGet s = .next { s with responses := s.responses ++ [(s.port, .eos)] }) ∧
    (s.slotFull = false → s.phase ≠ .faulted → s.closed = false →
      exec .snkGet s = .next (setPortQueue s.port (0x90000000#32 :: portQueue s.port s) s))

/-- R85, R86, R87: KIND and RDATA of every response. -/
def Obligations.ResponsesCarryTheirCodes : Prop :=
  (∀ v : Half, responseWord (.value v) = 0#2 ++ v) ∧
  responseWord (.level .low) = 0x00000#18 ∧ responseWord (.level .mid) = 0x00001#18 ∧
  responseWord (.level .high) = 0x00002#18 ∧
  responseWord (.bit .zero) = 0x00000#18 ∧ responseWord (.bit .one) = 0x00001#18 ∧
  responseWord (.bit .error) = 0x00002#18 ∧
  responseWord .eos = 0x10000#18 ∧ responseWord .fault = 0x20000#18

/-- R70, R206, R207: whatever step is taken, what has been delivered stays delivered; a step delivers at most the oldest bit not
yet delivered; and the emitted stream only grows at its end, unless a fault or a reset discards what was not delivered. -/
def Obligations.BitsAreDeliveredInOrder : Prop :=
  ∀ s t : State, step s = .next t →
    delivered s <+: delivered t ∧ delivered t <+: bitStream s ∧ (delivered t).length ≤ (delivered s).length + 1 ∧
    (bitStream s <+: bitStream t ∨ (bitStream t = delivered s ∧ (t.phase = .faulted ∨ nextCommand s = some .ctlReset)))

/-- R72, R210, R316 under log entries 2 and 4: from a draining block, a consumer that keeps issuing SNK.GET receives every bit
in the channel and the queue, in order, and then EOS, and the block is DONE. The loop `snk.drain` (R94, log entry 21) of a
consumer that has issued nothing receives the same, and ends there, with whatever turns are listed after. -/
def Obligations.DrainingEndsWithEos : Prop :=
  ∀ (s : State) (n : Nat), s.phase = .draining → n = (inSlot s ++ s.outq).length + 1 →
    let received := s.responses ++ (inSlot s ++ s.outq).map (fun b => (.consumer, .bit b)) ++ [(.consumer, .eos)]
    (s.sched = drainTurns n → s.consumerQ = List.replicate n 0x90000000#32 →
      ∃ t, Sys2Proof.core.run (2 * n) s = .next t ∧ t.phase = .done ∧ t.consumerQ = [] ∧ t.responses = received) ∧
    (∀ (turns : List Agent) (k : Nat), s.sched = drainTurns n ++ turns → s.consumerQ = [] →
      ∃ t, snkDrain (2 * n + k) s = .next t ∧ t.phase = .done ∧ t.consumerQ = [] ∧ t.responses = received ∧
        t.sched = turns)

/-- R71: what an accepted source command emits, and the phase and the datapath it leaves, depend on the configuration, the
datapath, the phase and the command alone, whatever the channel holds, and for SRC.EOF whatever is still staged (R205, R225);
or it faults from every such state. Neither the consumer's commands (SNK.GET, CTL.ABORT, R20) nor the producer's own steps
change configuration or datapath, and SNK.GET changes neither the phase nor what is staged. -/
def Obligations.EmissionDependsOnInputAlone : Prop :=
  (∀ (s₁ s₂ t₁ t₂ : State) (i : Instr), (∃ d, i = .srcSample d) ∨ (∃ b, i = .srcByte b) ∨ i = .srcEof →
    s₁.phase = s₂.phase → (s₁.phase = .running → i = .srcEof ∨ (s₁.outq = [] ∧ s₂.outq = [])) →
    sameConfig s₁ s₂ → sameDatapath s₁ s₂ → exec i s₁ = .next t₁ → exec i s₂ = .next t₂ →
    t₁.phase = t₂.phase ∧ sameConfig t₁ t₂ ∧ sameDatapath t₁ t₂ ∧
    ((t₁.phase = .faulted ∧ t₁.outq = [] ∧ t₂.outq = []) ∨
      ∃ bs, t₁.outq = s₁.outq ++ bs ∧ t₂.outq = s₂.outq ++ bs)) ∧
  (∀ (s t : State) (i : Instr), i = .snkGet ∨ i = .ctlAbort → exec i s = .next t →
    sameConfig s t ∧ sameDatapath s t ∧ (i = .snkGet → t.phase = s.phase ∧ t.outq = s.outq)) ∧
  (∀ s : State, sameConfig s (producerStep s) ∧ sameDatapath s (producerStep s))

/-! ## The whole machine -/

/-- R201: the invariants of the channel hold at reset, and every step keeps them, from every state that has them. -/
def Obligations.StepKeepsTheChannelInvariants : Prop :=
  ChannelInv State.reset ∧ ∀ s t : State, ChannelInv s → step s = .next t → ChannelInv t

/-- R25, R27, R40, R51, R74, R103, R141, R172, R175, R260: every step keeps the invariant of the block, from every state that
has it. -/
def Obligations.StepKeepsTheBlockInvariant : Prop :=
  ∀ s t : State, Inv s → step s = .next t → Inv t

/-- R50, R51: the state after reset has the invariant. -/
def Obligations.ResetHasTheInvariant : Prop := Inv State.reset

/-- R229, R103 (log entry 6): from every state with the invariant the next step answers: no command, no word and no turn stops the
model. -/
def Obligations.NothingStopsTheModel : Prop :=
  ∀ s : State, Inv s → ∃ t, step s = .next t

/-- R228, R262, R269, R270: in FAULTED only CTL.RESET changes any block state, FCODE and FINFO among it; CTL.RESET gives the
reset state. What the agents have issued and received and their turns are not block state, and CTL.RESET leaves them (the
model's choice, log entry 9). -/
def Obligations.OnlyResetLeavesFaulted : Prop :=
  (∀ s t : State, ChannelInv s → s.phase = .faulted → step s = .next t →
    (nextCommand s ≠ some .ctlReset → sameBlock s t) ∧ (nextCommand s = some .ctlReset → sameBlock State.reset t)) ∧
  (∀ s t : State, exec .ctlReset s = .next t →
    t.hostQ = s.hostQ ∧ t.sourceQ = s.sourceQ ∧ t.consumerQ = s.consumerQ ∧ t.sched = s.sched ∧ t.port = s.port ∧
      t.responses = s.responses)

/-- R74, R221, R222: outside IDLE no step changes a configuration register, unless it is CTL.RESET; and in every phase only
CFG.WRITE, CFG.DERIVE and CTL.RESET change one. -/
def Obligations.ConfigurationIsFrozenDuringARun : Prop :=
  ∀ s t : State, step s = .next t → nextCommand s ≠ some .ctlReset →
    (s.phase ≠ .idle → sameConfig s t) ∧
    ((∀ reg d, nextCommand s ≠ some (.cfgWrite reg d)) → (∀ f, nextCommand s ≠ some (.cfgDerive f)) → sameConfig s t)

/-- R22: the phase changes only as the rule lists: RUNNING by CTL.START from IDLE, DRAINING by SRC.EOF from RUNNING, DONE by the
producer's CLOSE from DRAINING, FAULTED from any phase, IDLE only by CTL.RESET. -/
def Obligations.PhaseChangesOnlyAsListed : Prop :=
  ∀ s t : State, step s = .next t → t.phase ≠ s.phase →
    (t.phase = .running → s.phase = .idle ∧ nextCommand s = some .ctlStart) ∧
    (t.phase = .draining → s.phase = .running ∧ nextCommand s = some .srcEof) ∧
    (t.phase = .done → closeEnabled s = true ∧ nextWord s = none) ∧
    (t.phase = .idle → nextCommand s = some .ctlReset)

/-- R264: faults are precise: a command that raises one changes no block state but by the fault primitive of R262. -/
def Obligations.FaultsArePrecise : Prop :=
  ∀ (i : Instr) (s t : State), exec i s = .next t → s.phase ≠ .faulted → t.phase = .faulted →
    ∃ c info, sameBlock (raiseFault c info s) t

/-- R273: every command may be issued by any agent: the port it stands on changes no block state. -/
def Obligations.AnyAgentMayIssueAnyCommand : Prop :=
  ∀ (i : Instr) (s t : State) (p : Port), exec i s = .next t →
    ∃ t', exec i { s with port := p } = .next t' ∧ sameBlock t t'
end

