-- ==== Sys2Proof/Laws/State.lean ====
section
/-! SUPPORT. The fields of a state after each shared update, true by rfl, so that no later proof unfolds a record update. simp reads
each conjunction as one rule per field. -/

namespace Sys2Proof.Machine

/-- Responding changes the response record only. -/
@[simp] theorem respond_fields (r : Response) (s : State) :
    (respond r s).phase = s.phase ∧ (respond r s).ctrl = s.ctrl ∧ (respond r s).fcode = s.fcode ∧
    (respond r s).finfo = s.finfo ∧ (respond r s).rate = s.rate ∧ (respond r s).n1 = s.n1 ∧
    (respond r s).n0 = s.n0 ∧ (respond r s).zmin = s.zmin ∧ (respond r s).zmax = s.zmax ∧
    (respond r s).omin = s.omin ∧ (respond r s).omax = s.omax ∧ (respond r s).tlong = s.tlong ∧
    (respond r s).tshort = s.tshort ∧ (respond r s).tmargin = s.tmargin ∧ (respond r s).run = s.run ∧
    (respond r s).span = s.span ∧ (respond r s).hph = s.hph ∧ (respond r s).pend = s.pend ∧
    (respond r s).hidx = s.hidx ∧ (respond r s).hbValid = s.hbValid ∧ (respond r s).hb = s.hb ∧
    (respond r s).w = s.w ∧ (respond r s).outq = s.outq ∧ (respond r s).slotFull = s.slotFull ∧
    (respond r s).slotVal = s.slotVal ∧ (respond r s).closed = s.closed ∧ (respond r s).hostQ = s.hostQ ∧
    (respond r s).sourceQ = s.sourceQ ∧ (respond r s).consumerQ = s.consumerQ ∧ (respond r s).sched = s.sched ∧
    (respond r s).port = s.port ∧ (respond r s).responses = s.responses ++ [(s.port, r)] :=
  ⟨rfl, rfl, rfl, rfl, rfl, rfl, rfl, rfl, rfl, rfl, rfl, rfl, rfl, rfl, rfl, rfl, rfl, rfl, rfl, rfl, rfl, rfl, rfl, rfl, rfl, rfl, rfl, rfl, rfl, rfl, rfl, rfl⟩

/-- Emitting changes OUTQ only. -/
@[simp] theorem emitAll_fields (bs : List BitCode) (s : State) :
    (emitAll bs s).phase = s.phase ∧ (emitAll bs s).ctrl = s.ctrl ∧ (emitAll bs s).fcode = s.fcode ∧
    (emitAll bs s).finfo = s.finfo ∧ (emitAll bs s).rate = s.rate ∧ (emitAll bs s).n1 = s.n1 ∧
    (emitAll bs s).n0 = s.n0 ∧ (emitAll bs s).zmin = s.zmin ∧ (emitAll bs s).zmax = s.zmax ∧
    (emitAll bs s).omin = s.omin ∧ (emitAll bs s).omax = s.omax ∧ (emitAll bs s).tlong = s.tlong ∧
    (emitAll bs s).tshort = s.tshort ∧ (emitAll bs s).tmargin = s.tmargin ∧ (emitAll bs s).run = s.run ∧
    (emitAll bs s).span = s.span ∧ (emitAll bs s).hph = s.hph ∧ (emitAll bs s).pend = s.pend ∧
    (emitAll bs s).hidx = s.hidx ∧ (emitAll bs s).hbValid = s.hbValid ∧ (emitAll bs s).hb = s.hb ∧
    (emitAll bs s).w = s.w ∧ (emitAll bs s).outq = s.outq ++ bs ∧ (emitAll bs s).slotFull = s.slotFull ∧
    (emitAll bs s).slotVal = s.slotVal ∧ (emitAll bs s).closed = s.closed ∧ (emitAll bs s).hostQ = s.hostQ ∧
    (emitAll bs s).sourceQ = s.sourceQ ∧ (emitAll bs s).consumerQ = s.consumerQ ∧ (emitAll bs s).sched = s.sched ∧
    (emitAll bs s).port = s.port ∧ (emitAll bs s).responses = s.responses :=
  ⟨rfl, rfl, rfl, rfl, rfl, rfl, rfl, rfl, rfl, rfl, rfl, rfl, rfl, rfl, rfl, rfl, rfl, rfl, rfl, rfl, rfl, rfl, rfl, rfl, rfl, rfl, rfl, rfl, rfl, rfl, rfl, rfl⟩

/-- CLOSE changes CLOSED and PHASE only. -/
@[simp] theorem close_fields (s : State) :
    (close s).phase = .done ∧ (close s).ctrl = s.ctrl ∧ (close s).fcode = s.fcode ∧ (close s).finfo = s.finfo ∧
    (close s).rate = s.rate ∧ (close s).n1 = s.n1 ∧ (close s).n0 = s.n0 ∧ (close s).zmin = s.zmin ∧
    (close s).zmax = s.zmax ∧ (close s).omin = s.omin ∧ (close s).omax = s.omax ∧ (close s).tlong = s.tlong ∧
    (close s).tshort = s.tshort ∧ (close s).tmargin = s.tmargin ∧ (close s).run = s.run ∧ (close s).span = s.span ∧
    (close s).hph = s.hph ∧ (close s).pend = s.pend ∧ (close s).hidx = s.hidx ∧ (close s).hbValid = s.hbValid ∧
    (close s).hb = s.hb ∧ (close s).w = s.w ∧ (close s).outq = s.outq ∧ (close s).slotFull = s.slotFull ∧
    (close s).slotVal = s.slotVal ∧ (close s).closed = true ∧ (close s).hostQ = s.hostQ ∧
    (close s).sourceQ = s.sourceQ ∧ (close s).consumerQ = s.consumerQ ∧ (close s).sched = s.sched ∧
    (close s).port = s.port ∧ (close s).responses = s.responses :=
  ⟨rfl, rfl, rfl, rfl, rfl, rfl, rfl, rfl, rfl, rfl, rfl, rfl, rfl, rfl, rfl, rfl, rfl, rfl, rfl, rfl, rfl, rfl, rfl, rfl, rfl, rfl, rfl, rfl, rfl, rfl, rfl, rfl⟩

/-- Replacing a port's queue changes no block state, no turn and no response. -/
@[simp] theorem setPortQueue_fields (p : Port) (q : List Word) (s : State) :
    (setPortQueue p q s).phase = s.phase ∧ (setPortQueue p q s).ctrl = s.ctrl ∧
    (setPortQueue p q s).fcode = s.fcode ∧ (setPortQueue p q s).finfo = s.finfo ∧
    (setPortQueue p q s).rate = s.rate ∧ (setPortQueue p q s).n1 = s.n1 ∧ (setPortQueue p q s).n0 = s.n0 ∧
    (setPortQueue p q s).zmin = s.zmin ∧ (setPortQueue p q s).zmax = s.zmax ∧ (setPortQueue p q s).omin = s.omin ∧
    (setPortQueue p q s).omax = s.omax ∧ (setPortQueue p q s).tlong = s.tlong ∧
    (setPortQueue p q s).tshort = s.tshort ∧ (setPortQueue p q s).tmargin = s.tmargin ∧
    (setPortQueue p q s).run = s.run ∧ (setPortQueue p q s).span = s.span ∧ (setPortQueue p q s).hph = s.hph ∧
    (setPortQueue p q s).pend = s.pend ∧ (setPortQueue p q s).hidx = s.hidx ∧
    (setPortQueue p q s).hbValid = s.hbValid ∧ (setPortQueue p q s).hb = s.hb ∧ (setPortQueue p q s).w = s.w ∧
    (setPortQueue p q s).outq = s.outq ∧ (setPortQueue p q s).slotFull = s.slotFull ∧
    (setPortQueue p q s).slotVal = s.slotVal ∧ (setPortQueue p q s).closed = s.closed ∧
    (setPortQueue p q s).sched = s.sched ∧ (setPortQueue p q s).port = s.port ∧
    (setPortQueue p q s).responses = s.responses := by
  cases p <;> exact ⟨rfl, rfl, rfl, rfl, rfl, rfl, rfl, rfl, rfl, rfl, rfl, rfl, rfl, rfl, rfl, rfl, rfl, rfl, rfl, rfl, rfl, rfl, rfl, rfl, rfl, rfl, rfl, rfl, rfl⟩

/-- A queue reads as it was set. -/
@[simp] theorem portQueue_setPortQueue (p : Port) (q : List Word) (s : State) :
    portQueue p (setPortQueue p q s) = q := by
  cases p <;> rfl

/-- Setting one port's queue leaves another's. -/
theorem portQueue_setPortQueue_of_ne (p p' : Port) (q : List Word) (s : State) (h : p' ≠ p) :
    portQueue p' (setPortQueue p q s) = portQueue p' s := by
  cases p <;> cases p' <;> first | rfl | exact absurd rfl h

/-- Setting a queue to what it holds changes nothing. -/
@[simp] theorem setPortQueue_self (p : Port) (s : State) : setPortQueue p (portQueue p s) s = s := by
  cases p <;> rfl

/-- Waiting changes no block state, no turn and no response. -/
@[simp] theorem wait_fields (i : Instr) (s : State) :
    (wait i s).phase = s.phase ∧ (wait i s).ctrl = s.ctrl ∧ (wait i s).fcode = s.fcode ∧
    (wait i s).finfo = s.finfo ∧ (wait i s).rate = s.rate ∧ (wait i s).n1 = s.n1 ∧ (wait i s).n0 = s.n0 ∧
    (wait i s).zmin = s.zmin ∧ (wait i s).zmax = s.zmax ∧ (wait i s).omin = s.omin ∧ (wait i s).omax = s.omax ∧
    (wait i s).tlong = s.tlong ∧ (wait i s).tshort = s.tshort ∧ (wait i s).tmargin = s.tmargin ∧
    (wait i s).run = s.run ∧ (wait i s).span = s.span ∧ (wait i s).hph = s.hph ∧ (wait i s).pend = s.pend ∧
    (wait i s).hidx = s.hidx ∧ (wait i s).hbValid = s.hbValid ∧ (wait i s).hb = s.hb ∧ (wait i s).w = s.w ∧
    (wait i s).outq = s.outq ∧ (wait i s).slotFull = s.slotFull ∧ (wait i s).slotVal = s.slotVal ∧
    (wait i s).closed = s.closed ∧ (wait i s).sched = s.sched ∧ (wait i s).port = s.port ∧
    (wait i s).responses = s.responses :=
  setPortQueue_fields _ _ s

/-- A queue reads the same whatever the block holds. -/
@[simp] theorem portQueue_respond (p : Port) (r : Response) (s : State) :
    portQueue p (respond r s) = portQueue p s := by
  cases p <;> rfl

/-- Reset leaves what the agents have issued and received, the schedule and the port. -/
@[simp] theorem resetState_environment (s : State) :
    (resetState s).hostQ = s.hostQ ∧ (resetState s).sourceQ = s.sourceQ ∧ (resetState s).consumerQ = s.consumerQ ∧
    (resetState s).sched = s.sched ∧ (resetState s).port = s.port ∧ (resetState s).responses = s.responses :=
  ⟨rfl, rfl, rfl, rfl, rfl, rfl⟩

end Sys2Proof.Machine
end

