-- ==== Sys2Proof/Laws/Ops.lean ====
section
/-! SUPPORT. What each shared operation can do, said once: the fault primitive, an illegal word, the producer's steps, the three
demodulators' steps. Later proofs cite these and do not unfold the operations. -/

namespace Sys2Proof.Machine

/-! ## Faults -/

/-- Outside FAULTED the primitive records the fault (R262). -/
theorem raiseFault_of_not_faulted (c : FaultCode) (info : Half) {s : State} (h : s.phase ≠ .faulted) :
    raiseFault c info s =
      { s with phase := .faulted, fcode := faultNumber c, finfo := info, outq := [], slotFull := false, slotVal := .zero } := by
  simp [raiseFault, h]

/-- In FAULTED the primitive changes nothing (R262, R270). -/
theorem raiseFault_of_faulted (c : FaultCode) (info : Half) {s : State} (h : s.phase = .faulted) :
    raiseFault c info s = s := by
  simp [raiseFault, h]

/-- The primitive always leaves FAULTED. -/
@[simp] theorem raiseFault_phase (c : FaultCode) (info : Half) (s : State) :
    (raiseFault c info s).phase = .faulted := by
  by_cases h : s.phase = .faulted <;> simp [raiseFault, h]

/-- The primitive leaves the configuration, the datapath, CLOSED and all that is not the block's (R262). -/
@[simp] theorem raiseFault_frame (c : FaultCode) (info : Half) (s : State) :
    (raiseFault c info s).ctrl = s.ctrl ∧ (raiseFault c info s).rate = s.rate ∧ (raiseFault c info s).n1 = s.n1 ∧
    (raiseFault c info s).n0 = s.n0 ∧ (raiseFault c info s).zmin = s.zmin ∧ (raiseFault c info s).zmax = s.zmax ∧
    (raiseFault c info s).omin = s.omin ∧ (raiseFault c info s).omax = s.omax ∧ (raiseFault c info s).tlong = s.tlong ∧
    (raiseFault c info s).tshort = s.tshort ∧ (raiseFault c info s).tmargin = s.tmargin ∧
    (raiseFault c info s).run = s.run ∧ (raiseFault c info s).span = s.span ∧ (raiseFault c info s).hph = s.hph ∧
    (raiseFault c info s).pend = s.pend ∧ (raiseFault c info s).hidx = s.hidx ∧
    (raiseFault c info s).hbValid = s.hbValid ∧ (raiseFault c info s).hb = s.hb ∧ (raiseFault c info s).w = s.w ∧
    (raiseFault c info s).closed = s.closed ∧ (raiseFault c info s).hostQ = s.hostQ ∧
    (raiseFault c info s).sourceQ = s.sourceQ ∧ (raiseFault c info s).consumerQ = s.consumerQ ∧
    (raiseFault c info s).sched = s.sched ∧ (raiseFault c info s).port = s.port ∧
    (raiseFault c info s).responses = s.responses := by
  by_cases h : s.phase = .faulted <;> simp [raiseFault, h]

/-- A recorded code is one of 1 to 11 (R260). -/
theorem faultNumber_range (c : FaultCode) : 1 ≤ (faultNumber c).toNat ∧ (faultNumber c).toNat ≤ 11 := by
  cases c <;> decide

/-- An illegal word is a fault, with or without a response (R261). -/
theorem illegalWord_cases (w : Word) (s : State) :
    (opResponds w = true ∧ illegalWord w s = respond .fault (raiseFault .illegal (highHalf w) s)) ∨
    (opResponds w = false ∧ illegalWord w s = raiseFault .illegal (highHalf w) s) := by
  cases h : opResponds w <;> simp [illegalWord, h]

/-! ## The producer -/

/-- PUSH's condition in the words of R203. -/
theorem pushEnabled_iff (s : State) :
    pushEnabled s = true ↔ (s.phase = .running ∨ s.phase = .draining) ∧ s.outq ≠ [] ∧ s.slotFull = false := by
  simp [pushEnabled, and_assoc]

/-- CLOSE's condition in the words of R204. -/
theorem closeEnabled_iff (s : State) : closeEnabled s = true ↔ s.phase = .draining ∧ s.outq = [] := by
  simp [closeEnabled]

/-- The producer pushes, closes, or has no step. -/
theorem producerStep_cases (s : State) :
    (∃ b rest, (s.phase = .running ∨ s.phase = .draining) ∧ s.slotFull = false ∧ s.outq = b :: rest ∧
      producerStep s = { s with slotVal := b, slotFull := true, outq := rest }) ∨
    (s.phase = .draining ∧ s.outq = [] ∧ producerStep s = close s) ∨
    (pushEnabled s = false ∧ closeEnabled s = false ∧ producerStep s = s) := by
  unfold producerStep
  by_cases hp : pushEnabled s = true
  · obtain ⟨hph, hq, hf⟩ := (pushEnabled_iff s).1 hp
    obtain ⟨b, rest, hbr⟩ := List.exists_cons_of_ne_nil hq
    exact .inl ⟨b, rest, hph, hf, hbr, by simp [hp, push, hbr]⟩
  · by_cases hc : closeEnabled s = true
    · obtain ⟨hd, hq⟩ := (closeEnabled_iff s).1 hc
      exact .inr (.inl ⟨hd, hq, by simp [hp, hc]⟩)
    · exact .inr (.inr ⟨by simpa using hp, by simpa using hc, by simp [hp, hc]⟩)

/-! ## Counting -/

/-- The count as a number (R36, R37). -/
@[simp] theorem countUp_toNat (c : Word) : (countUp c).toNat = min (c.toNat + 1) (2 ^ 32 - 1) := by
  have := c.isLt
  simp only [countUp, BitVec.toNat_ofNat]
  omega

/-- A count is never 0. -/
theorem countUp_ne_zero (c : Word) : countUp c ≠ 0 := by
  intro h
  have h' := congrArg BitVec.toNat h
  rw [countUp_toNat] at h'
  simp at h'

/-! ## The duration-count demodulator -/

/-- A DCD step moves RUN and appends at most one bit, never ERROR (R122, R129). -/
theorem dcdStep_spec (l : Level) (s : State) :
    ∃ r bs, dcdStep l s = { s with run := r, outq := s.outq ++ bs } ∧ bs.length ≤ 1 ∧ BitCode.error ∉ bs := by
  have stop : ∃ r bs, (if s.run = 0 then s
      else { emitAll (dcdClassify s.n1 s.n0 s.run.toNat).toList s with run := 0 }) =
        { s with run := r, outq := s.outq ++ bs } ∧ bs.length ≤ 1 ∧ BitCode.error ∉ bs := by
    by_cases h0 : s.run = 0
    · exact ⟨s.run, [], by rw [if_pos h0]; simp, by simp, by simp⟩
    · refine ⟨0, (dcdClassify s.n1 s.n0 s.run.toNat).toList, by rw [if_neg h0]; rfl, ?_⟩
      unfold dcdClassify
      split
      · simp
      · split <;> simp
  cases l with
  | high => exact ⟨countUp s.run, [], by simp [dcdStep]⟩
  | low => exact stop
  | mid => exact stop

/-! ## The half-cycle demodulator -/

/-- Two-valued PEND. -/
theorem pend_cases (s : State) : s.pend = .idle ∨ s.pend = .pendingOne := by
  cases s.pend <;> simp

/-- Two-valued HPH. -/
theorem hph_cases (s : State) : s.hph = .waitLow ∨ s.hph = .counting := by
  cases s.hph <;> simp

/-- Classifying a span moves PEND and appends at most two bits; ERROR comes only before a 0, from a pending half in the Zero
window (R142, R153). -/
theorem hcdClassify_spec (n : Nat) (s : State) :
    ∃ p bs, hcdClassify n s = { s with pend := p, outq := s.outq ++ bs } ∧ bs.length ≤ 2 ∧
      (BitCode.error ∈ bs → bs = [.error, .zero] ∧ s.pend = .pendingOne ∧ inZero s n = true) := by
  unfold hcdClassify
  by_cases hz : inZero s n = true
  · rw [if_pos hz]
    rcases pend_cases s with hp | hp
    · exact ⟨.idle, [.zero], by simp [zeroBranch, hp, emit, emitAll], by simp, by simp⟩
    · exact ⟨.idle, [.error, .zero], by simp [zeroBranch, hp, emit, emitAll], by simp, by simp [hp, hz]⟩
  · rw [if_neg hz]
    by_cases ho : inOne s n = true
    · rw [if_pos ho]
      rcases pend_cases s with hp | hp
      · exact ⟨.pendingOne, [], by simp [oneBranch, hp], by simp, by simp⟩
      · exact ⟨.idle, [.one], by simp [oneBranch, hp, emit, emitAll], by simp, by simp⟩
    · rw [if_neg ho]
      by_cases hn : ctrlNcp s = true
      · exact ⟨.idle, [], by simp [noiseBranch, hn], by simp, by simp⟩
      · exact ⟨s.pend, [], by simp [noiseBranch, hn], by simp, by simp⟩

/-- The starting LOW sample is counted (R141). -/
theorem hcdStep_start (s : State) (h : s.hph = .waitLow) :
    hcdStep .low s = { s with hph := .counting, span := 1 } := by
  simp [hcdStep, h]

/-- MID and HIGH before a LOW change nothing (R141). -/
theorem hcdStep_waiting (l : Level) (s : State) (h : s.hph = .waitLow) (hl : l ≠ .low) : hcdStep l s = s := by
  cases l <;> simp_all [hcdStep]

/-- LOW and MID extend a span (R141). -/
theorem hcdStep_count (l : Level) (s : State) (h : s.hph = .counting) (hl : l ≠ .high) :
    hcdStep l s = { s with span := countUp s.span } := by
  cases l <;> simp_all [hcdStep]

/-- HIGH finalizes a span (R141). -/
theorem hcdStep_finalize (s : State) (h : s.hph = .counting) :
    hcdStep .high s = { hcdClassify s.span.toNat s with span := 0, hph := .waitLow } := by
  simp [hcdStep, h]

/-- An HCD step moves SPAN, HPH and PEND, keeps a span counted exactly while COUNTING, and appends at most two bits (R141,
R153). -/
theorem hcdStep_spec (l : Level) (s : State) :
    ∃ n h p bs, hcdStep l s = { s with span := n, hph := h, pend := p, outq := s.outq ++ bs } ∧ bs.length ≤ 2 ∧
      ((s.hph = .counting ↔ s.span ≠ 0) → (h = .counting ↔ n ≠ 0)) ∧
      (BitCode.error ∈ bs → bs = [.error, .zero] ∧ s.pend = .pendingOne ∧ s.hph = .counting ∧ l = .high ∧
        inZero s s.span.toNat = true) := by
  rcases hph_cases s with hh | hh
  · by_cases hl : l = .low
    · subst hl
      exact ⟨1, .counting, s.pend, [], by rw [hcdStep_start s hh]; simp, by simp, by simp, by simp⟩
    · exact ⟨s.span, s.hph, s.pend, [], by rw [hcdStep_waiting l s hh hl]; simp, by simp, id, by simp⟩
  · by_cases hl : l = .high
    · subst hl
      obtain ⟨p, bs, he, hlen, herr⟩ := hcdClassify_spec s.span.toNat s
      refine ⟨0, .waitLow, p, bs, by rw [hcdStep_finalize s hh, he], hlen, by simp, fun hmem => ?_⟩
      obtain ⟨h1, h2, h3⟩ := herr hmem
      exact ⟨h1, h2, hh, rfl, h3⟩
    · exact ⟨countUp s.span, s.hph, s.pend, [], by rw [hcdStep_count l s hh hl]; simp, by simp,
        fun _ => iff_of_true hh (countUp_ne_zero _), by simp⟩

/-! ## The timer-pulse demodulator -/

/-- A window of 2k values has k cells. -/
theorem cellsOf_length : ∀ (k : Nat) (win : List Half), win.length = 2 * k → (cellsOf win).length = k
  | 0, win, h => by simp [List.length_eq_zero_iff.1 (by simpa using h), cellsOf]
  | k + 1, x :: y :: rest, h => by
    have := cellsOf_length k rest (by simp only [List.length_cons] at h; omega)
    simp [cellsOf, this]
  | k + 1, [], h => by simp at h
  | k + 1, [_], h => by simp only [List.length_cons, List.length_nil] at h; omega

/-- A class is a bit, never ERROR (R176). -/
theorem cellClass_ne_error (s : State) (c : Half × Half) : cellClass s c ≠ some .error := by
  unfold cellClass
  dsimp only
  split
  · simp
  · split <;> simp

/-- The classes of some cells are as many bits, none of them ERROR. -/
theorem cellClasses_spec (s : State) :
    ∀ (cs : List (Half × Half)) (bits : List BitCode), cellClasses s cs = some bits →
      bits.length = cs.length ∧ BitCode.error ∉ bits
  | [], bits, h => by simp [cellClasses] at h; simp [h]
  | c :: rest, bits, h => by
    unfold cellClasses at h
    split at h
    · rename_i b bs hb hbs
      obtain ⟨hl, he⟩ := cellClasses_spec s rest bs hbs
      cases h
      refine ⟨by simp [hl], ?_⟩
      intro hm
      rcases List.mem_cons.1 hm with rfl | hm
      · exact cellClass_ne_error s c hb
      · exact he hm
    · cases h

/-- An attempt on a full window slides by one or two values, or emits eleven bits and empties the window (R175, R183). -/
theorem tpdAttempt_spec (s : State) (h : s.w.length = 22) :
    (tpdAttempt s = { s with w := s.w.drop 1 } ∨ tpdAttempt s = { s with w := s.w.drop 2 }) ∨
    ∃ bits, tpdAttempt s = { s with w := [], outq := s.outq ++ bits } ∧ bits.length = 11 ∧ BitCode.error ∉ bits := by
  unfold tpdAttempt
  cases ha : attemptOn s s.w with
  | slideHalf => exact .inl (.inl rfl)
  | slideFull => exact .inl (.inr rfl)
  | frame bits =>
    refine .inr ⟨bits, rfl, ?_⟩
    unfold attemptOn at ha
    split at ha
    · split at ha
      · cases ha
      · rename_i bs hbs
        split at ha
        · cases ha
          obtain ⟨hl, he⟩ := cellClasses_spec s _ _ hbs
          exact ⟨by rw [hl, cellsOf_length 11 _ (by simpa using h)], he⟩
        · cases ha
    · cases ha

/-- A value moves the window and appends none or eleven bits; a window of fewer than 22 values stays one (R175). -/
theorem tpdValue_spec (v : Half) (s : State) :
    ∃ win bs, tpdValue v s = { s with w := win, outq := s.outq ++ bs } ∧ bs.length ≤ 11 ∧ BitCode.error ∉ bs ∧
      (s.w.length < 22 → win.length < 22) := by
  unfold tpdValue
  by_cases h : (s.w ++ [v]).length = 22
  · rw [if_pos h]
    rcases tpdAttempt_spec { s with w := s.w ++ [v] } h with (he | he) | ⟨bits, he, hl, hb⟩
    · exact ⟨(s.w ++ [v]).drop 1, [], by rw [he, List.append_nil], by simp, by simp,
        fun _ => by rw [List.length_drop]; omega⟩
    · exact ⟨(s.w ++ [v]).drop 2, [], by rw [he, List.append_nil], by simp, by simp,
        fun _ => by rw [List.length_drop]; omega⟩
    · exact ⟨[], bits, he, by omega, hb, by simp⟩
  · rw [if_neg h]
    refine ⟨s.w ++ [v], [], by rw [List.append_nil], by simp, by simp, fun hlt => ?_⟩
    simp only [List.length_append, List.length_cons, List.length_nil] at h ⊢
    omega

/-- A byte faults in the header, or moves the T77 state and appends none or eleven bits (R172). -/
theorem tpdByte_spec (b : Byte) (s : State) :
    (∃ c, s.hidx < 18 ∧ tpdByte b s = raiseFault c (BitVec.ofNat 16 s.hidx) s) ∨
    (s.hidx < 18 ∧ tpdByte b s = { s with hidx := s.hidx + 1 }) ∨
    ∃ v hb win bs, 18 ≤ s.hidx ∧ tpdByte b s = { s with hbValid := v, hb := hb, w := win, outq := s.outq ++ bs } ∧
      bs.length ≤ 11 ∧ BitCode.error ∉ bs ∧ (s.w.length < 22 → win.length < 22) := by
  unfold tpdByte
  by_cases hi : s.hidx < 18
  · by_cases hb : b ≠ headerByte s.hidx
    · exact .inl ⟨_, hi, by rw [if_pos hi, if_pos hb]⟩
    · exact .inr (.inl ⟨hi, by rw [if_pos hi, if_neg hb]⟩)
  · refine .inr (.inr ?_)
    by_cases hv : s.hbValid = false
    · exact ⟨true, b, s.w, [], by omega, by simp [hi, hv], by simp, by simp, id⟩
    · obtain ⟨win, bs, he, hl, herr, hw⟩ := tpdValue_spec (joinValue s.hb b) { s with hbValid := false }
      exact ⟨false, s.hb, win, bs, by omega, by rw [if_neg hi, if_neg hv, he], hl, herr, hw⟩

/-! ## The configuration registers -/

/-- A register write changes configuration registers only, and leaves the reserved bits of CTRL at 0 (R27, R230). -/
theorem writeReg_spec (r : Reg) (d : Half) (s : State) :
    ∃ ctrl rate n1 n0 zmin zmax omin omax tlong tshort tmargin,
      writeReg r d s =
        { s with
          ctrl := ctrl, rate := rate, n1 := n1, n0 := n0, zmin := zmin, zmax := zmax, omin := omin, omax := omax,
          tlong := tlong, tshort := tshort, tmargin := tmargin } ∧
      (s.ctrl &&& 0xC0C0#16 = 0#16 → ctrl &&& 0xC0C0#16 = 0#16) := by
  refine ⟨(writeReg r d s).ctrl, (writeReg r d s).rate, (writeReg r d s).n1, (writeReg r d s).n0,
    (writeReg r d s).zmin, (writeReg r d s).zmax, (writeReg r d s).omin, (writeReg r d s).omax,
    (writeReg r d s).tlong, (writeReg r d s).tshort, (writeReg r d s).tmargin, by cases r <;> rfl, fun h => ?_⟩
  cases r <;> try exact h
  change d &&& ctrlWriteMask &&& 0xC0C0#16 = 0#16
  rw [BitVec.and_assoc, show ctrlWriteMask &&& 0xC0C0#16 = 0#16 from rfl, BitVec.and_zero]

end Sys2Proof.Machine
end

