-- ==== Sys2Proof/Laws/Windows.lean ====
section
/-! SUPPORT. What the derivations of CFG.DERIVE and the quantizer compute, one lemma per function. -/

namespace Sys2Proof.Machine

/-- A bound above 0xFFFF leaves no windows (R148). -/
theorem fitWindows_none {z o : Nat × Nat} (h : 0xFFFF < z.1 ∨ 0xFFFF < z.2 ∨ 0xFFFF < o.1 ∨ 0xFFFF < o.2) :
    fitWindows z o = none := by
  unfold fitWindows
  rw [if_pos h]

/-- Bounds that fit are the windows' bounds, as numbers (R148). -/
theorem fitWindows_some {z o : Nat × Nat} (h : z.1 ≤ 0xFFFF ∧ z.2 ≤ 0xFFFF ∧ o.1 ≤ 0xFFFF ∧ o.2 ≤ 0xFFFF) :
    ∃ w, fitWindows z o = some w ∧ w.zmin.toNat = z.1 ∧ w.zmax.toNat = z.2 ∧ w.omin.toNat = o.1 ∧
      w.omax.toNat = o.2 := by
  unfold fitWindows
  rw [if_neg (by omega)]
  refine ⟨_, rfl, ?_⟩
  simp only [BitVec.toNat_ofNat]
  omega

/-- A result above 0xFFFF leaves no FB thresholds (R125). -/
theorem deriveFb_none {r : Nat} (h : 0xFFFF < r / 958 - 2 ∨ 0xFFFF < r / 1917 - 2) : deriveFb r = none := by
  unfold deriveFb
  dsimp only
  rw [if_pos h]

/-- FB thresholds that fit, as numbers (R125). -/
theorem deriveFb_some {r : Nat} (h : r / 958 - 2 ≤ 0xFFFF ∧ r / 1917 - 2 ≤ 0xFFFF) :
    ∃ p, deriveFb r = some p ∧ p.1.toNat = r / 958 - 2 ∧ p.2.toNat = r / 1917 - 2 := by
  unfold deriveFb
  dsimp only
  rw [if_neg (by omega)]
  refine ⟨_, rfl, ?_⟩
  simp only [BitVec.toNat_ofNat]
  omega

/-- What a derivation writes are the threshold registers (R222). -/
theorem deriveState_spec {g : Fmt} {s t : State} (h : deriveState g s = some t) :
    (∃ p, t = writeFb p s) ∨ ∃ w, t = writeWindows w s := by
  cases g <;> simp only [deriveState, Option.map_eq_some_iff] at h <;> obtain ⟨a, -, ha⟩ := h <;>
    first
    | exact .inl ⟨a, ha.symm⟩
    | exact .inr ⟨a, ha.symm⟩

/-- The thresholds at depth 8 (R101). -/
theorem thresholds_8 : thresholds 8 = some (76, 179) := by decide

/-- The thresholds at depth 16 (R101). -/
theorem thresholds_16 : thresholds 16 = some (-13108, 13107) := by decide

/-- The quantizer has a level exactly at the legal depths (R103). -/
theorem quantize_isSome_iff (d : Half) (depth : Nat) : (quantize d depth).isSome = true ↔ depth = 8 ∨ depth = 16 := by
  by_cases h8 : depth = 8
  · subst h8
    simp [quantize, thresholds_8, amplitude]
  · by_cases h16 : depth = 16
    · subst h16
      simp [quantize, thresholds_16, amplitude]
    · simp [quantize, amplitude, h8, h16]

end Sys2Proof.Machine
end

