-- ==== Sys2Proof/Laws/Effect.lean ====
section
/-! SUPPORT. What a command can do and what a step can do, said once: `exec_effect` and `step_cases` are the inversion lemmas from
which claims about the whole machine are derived. -/

namespace Sys2Proof.Machine

/-- Every way a command answers, with the conditions under which it answers so. -/
inductive Effect (i : Instr) (s : State) : State → Prop where
  /-- No effect. -/
  | none : Effect i s s
  /-- A fault (R262). -/
  | fault (c : FaultCode) (info : Half) (hi : i ≠ .snkGet ∧ i ≠ .ctlReset ∧ (∀ r, i ≠ .cfgRead r) ∧ ∀ d, i ≠ .qClassify d) :
      Effect i s (raiseFault c info s)
  /-- A fault with a response (R106, R220). -/
  | faultAnswered (c : FaultCode) (info : Half) (hi : (∃ r, i = .cfgRead r) ∨ ∃ d, i = .qClassify d) :
      Effect i s (respond .fault (raiseFault c info s))
  /-- A response that is no bit. -/
  | answer (r : Response) (h : ∀ b, r ≠ .bit b)
      (hi : (∃ r, i = .cfgRead r) ∨ (∃ d, i = .qClassify d) ∨ i = .snkGet) : Effect i s (respond r s)
  /-- The bit in the slot is delivered (R202). -/
  | take (hi : i = .snkGet) (h : s.slotFull = true) :
      Effect i s { respond (.bit s.slotVal) s with slotFull := false, slotVal := .zero }
  /-- The input waits (R205). -/
  | inputWait (hi : (∃ d, i = .srcSample d) ∨ ∃ b, i = .srcByte b) (hp : s.phase = .running) (hq : s.outq ≠ []) :
      Effect i s (wait i s)
  /-- The consumer waits (R202). -/
  | getWait (hi : i = .snkGet) (hf : s.slotFull = false) (hp : s.phase ≠ .faulted) (hc : s.closed = false) :
      Effect i s (wait i s)
  /-- A register is written (R221). -/
  | write (reg : Byte) (d : Half) (r : Reg) (hi : i = .cfgWrite reg d) (hr : rwRegOfIndex reg = some r)
      (hp : s.phase = .idle) : Effect i s (writeReg r d s)
  /-- Thresholds are derived (R222). -/
  | derive (f : BitVec 3) (g : Fmt) (t : State) (hi : i = .cfgDerive f) (hp : s.phase = .idle)
      (hd : deriveState g s = some t) : Effect i s t
  /-- The run starts (R223). -/
  | start (hi : i = .ctlStart) (hp : s.phase = .idle) (hs : startFault s = .none) :
      Effect i s { s with phase := .running }
  /-- A duration-count step (R224). -/
  | dcd (d : Half) (l : Level) (hi : i = .srcSample d) (hp : s.phase = .running) (hq : s.outq = [])
      (hm : ctrlMode s = 1) : Effect i s (dcdStep l s)
  /-- A half-cycle step (R224). -/
  | hcd (d : Half) (l : Level) (hi : i = .srcSample d) (hp : s.phase = .running) (hq : s.outq = [])
      (hm : ctrlMode s = 2) : Effect i s (hcdStep l s)
  /-- A timer-pulse step (R171). -/
  | tpd (b : Byte) (hi : i = .srcByte b) (hp : s.phase = .running) (hq : s.outq = []) (hm : ctrlMode s = 3) :
      Effect i s (tpdByte b s)
  /-- End of input in DCD mode (R126). -/
  | eofDcd (hi : i = .srcEof) (hp : s.phase = .running) (hm : ctrlMode s = 1) :
      Effect i s { s with run := 0, phase := .draining }
  /-- End of input in HCD mode (R147). -/
  | eofHcd (hi : i = .srcEof) (hp : s.phase = .running) (hm : ctrlMode s = 2) :
      Effect i s { s with span := 0, hph := .waitLow, pend := .idle, phase := .draining }
  /-- End of input in TPD mode (R180). -/
  | eofTpd (hi : i = .srcEof) (hp : s.phase = .running) (hm : ctrlMode s = 3) (hh : 18 ≤ s.hidx) :
      Effect i s { s with w := [], hbValid := false, hb := 0, phase := .draining }
  /-- Reset (R227). -/
  | reset (hi : i = .ctlReset) : Effect i s (resetState s)

/-- The back-pressure test in the words of R205. -/
theorem inputWaits_iff (s : State) : inputWaits s = true ↔ s.phase = .running ∧ s.outq ≠ [] := by
  simp [inputWaits]

/-- Past the back-pressure test, a running block has an empty OUTQ. -/
theorem outq_nil_of_not_inputWaits {s : State} (h : ¬inputWaits s = true) (hp : s.phase = .running) : s.outq = [] := by
  rw [inputWaits_iff] at h
  by_contra hq
  exact h ⟨hp, hq⟩

/-- Every answer of a command is one of the listed effects. -/
theorem exec_effect {i : Instr} {s t : State} (h : exec i s = .next t) : Effect i s t := by
  cases i with
  | cfgWrite reg d =>
    simp only [exec, execCfgWrite] at h
    split at h
    · cases h; exact .none
    · split at h
      · cases h; exact .fault _ _ (by simp)
      · rename_i r hr
        split at h
        · cases h; exact .fault _ _ (by simp)
        · rename_i hi; cases h; exact .write reg d r rfl hr (not_not.1 hi)
  | cfgRead reg =>
    simp only [exec, execCfgRead] at h
    split at h
    · cases h; exact .faultAnswered _ _ (by simp)
    · cases h; exact .answer _ (by simp) (by simp)
  | cfgDerive f =>
    simp only [exec, execCfgDerive] at h
    split at h
    · cases h; exact .none
    · split at h
      · cases h; exact .fault _ _ (by simp)
      · rename_i g hg
        split at h
        · cases h; exact .fault _ _ (by simp)
        · rename_i hi
          split at h
          · cases h; exact .fault _ _ (by simp)
          · rename_i t' hd; cases h; exact .derive f g _ rfl (not_not.1 hi) hd
  | ctlStart =>
    simp only [exec, execCtlStart] at h
    split at h
    · cases h; exact .none
    · split at h
      · cases h; exact .fault _ _ (by simp)
      · rename_i hi
        split at h
        · cases h; exact .fault _ _ (by simp)
        · rename_i hs; cases h; exact .start rfl (not_not.1 hi) hs
  | qClassify d =>
    simp only [exec, execQClassify] at h
    split at h
    · cases h; exact .answer _ (by simp) (by simp)
    · split at h
      · cases h; exact .faultAnswered _ _ (by simp)
      · cases h; exact .answer _ (by simp) (by simp)
  | srcSample d =>
    simp only [exec, execSrcSample] at h
    split at h
    · rename_i hw
      cases h
      obtain ⟨hp, hq⟩ := (inputWaits_iff s).1 hw
      exact .inputWait (.inl ⟨d, rfl⟩) hp hq
    · rename_i hw
      split at h
      · cases h; exact .none
      · split at h
        · cases h; exact .fault _ _ (by simp)
        · rename_i hg
          obtain ⟨hp, hm⟩ := not_or.1 hg
          have hq := outq_nil_of_not_inputWaits hw (not_not.1 hp)
          split at h
          · cases h
          · rename_i l _
            cases h
            by_cases h1 : ctrlMode s = 1
            · rw [if_pos h1]; exact .dcd d l rfl (not_not.1 hp) hq h1
            · rw [if_neg h1]; exact .hcd d l rfl (not_not.1 hp) hq ((not_not.1 hm).resolve_left h1)
  | srcByte b =>
    simp only [exec, execSrcByte] at h
    split at h
    · rename_i hw
      cases h
      obtain ⟨hp, hq⟩ := (inputWaits_iff s).1 hw
      exact .inputWait (.inr ⟨b, rfl⟩) hp hq
    · rename_i hw
      split at h
      · cases h; exact .none
      · split at h
        · cases h; exact .fault _ _ (by simp)
        · rename_i hg
          obtain ⟨hp, hm⟩ := not_or.1 hg
          cases h
          exact .tpd b rfl (not_not.1 hp) (outq_nil_of_not_inputWaits hw (not_not.1 hp)) (not_not.1 hm)
  | srcEof =>
    simp only [exec, execSrcEof] at h
    split at h
    · cases h; exact .none
    · split at h
      · cases h; exact .fault _ _ (by simp)
      · rename_i hp
        split at h
        · rename_i hm; cases h; exact .eofDcd rfl (not_not.1 hp) hm
        · rename_i hm; cases h; exact .eofHcd rfl (not_not.1 hp) hm
        · rename_i hm
          split at h
          · cases h; exact .fault _ _ (by simp)
          · rename_i hh; cases h; exact .eofTpd rfl (not_not.1 hp) hm (not_lt.1 hh)
        · cases h
  | snkGet =>
    simp only [exec, execSnkGet] at h
    split at h
    · rename_i hf; cases h; exact .take rfl hf
    · rename_i hf
      split at h
      · cases h; exact .answer _ (by simp) (by simp)
      · rename_i hp
        split at h
        · cases h; exact .answer _ (by simp) (by simp)
        · rename_i hc; cases h; exact .getWait rfl (by simpa using hf) hp (by simpa using hc)
  | ctlAbort =>
    simp only [exec, execCtlAbort] at h
    split at h
    · cases h; exact .none
    · cases h; exact .fault _ _ (by simp)
  | ctlReset =>
    simp only [exec, execCtlReset] at h
    cases h
    exact .reset rfl

/-- The state in which a word taken from a port is executed: the turn spent, the word gone from its port. -/
def taken (s : State) (p : Port) (ws : List Word) : State :=
  { setPortQueue p ws { s with sched := s.sched.tail } with port := p }

/-- Taking a word changes no block state. -/
theorem taken_sameBlock (s : State) (p : Port) (ws : List Word) : sameBlock s (taken s p ws) := by
  cases p <;> rfl

/-- Every step is the producer's, a turn of an agent that has issued nothing, an illegal word, or a command. -/
theorem step_cases {s t : State} (h : step s = .next t) :
    (nextWord s = none ∧ t = producerStep { s with sched := s.sched.tail }) ∨
    (nextWord s = none ∧ t = { s with sched := s.sched.tail }) ∨
    (∃ p w ws, nextWord s = some w ∧ portQueue p s = w :: ws ∧ decodeWord w = none ∧
      t = illegalWord w (taken s p ws)) ∨
    (∃ p w ws i, nextCommand s = some i ∧ portQueue p s = w :: ws ∧ decodeWord w = some i ∧
      exec i (taken s p ws) = .next t) := by
  cases hs : s.sched with
  | nil =>
    refine .inl ⟨by simp [nextWord, hs], ?_⟩
    have : ({ s with sched := s.sched.tail } : State) = s := by rw [hs]; cases s; simp_all
    rw [hs] at this
    simp only [step, takeTurn, hs] at h
    cases h
    simpa using congrArg producerStep this.symm
  | cons a rest =>
    cases a with
    | producer =>
      simp only [step, takeTurn, hs] at h
      cases h
      exact .inl ⟨by simp [nextWord, hs], by simp⟩
    | external p =>
      have hq : portQueue p ({ s with sched := rest } : State) = portQueue p s := by cases p <;> rfl
      simp only [step, takeTurn, hs, portStep, takeWord, hq] at h
      cases hw : portQueue p s with
      | nil =>
        simp only [hw] at h
        cases h
        exact .inr (.inl ⟨by simp [nextWord, hs, hw], by simp⟩)
      | cons w ws =>
        simp only [hw] at h
        have ht : taken s p ws = { setPortQueue p ws { s with sched := rest } with port := p } := by
          simp [taken, hs]
        cases hd : decodeWord w with
        | none =>
          simp only [hd] at h
          cases h
          exact .inr (.inr (.inl ⟨p, w, ws, by simp [nextWord, hs, hw], hw, hd, by rw [ht]⟩))
        | some i =>
          simp only [hd] at h
          exact .inr (.inr (.inr ⟨p, w, ws, i, by simp [nextCommand, nextWord, hs, hw, hd], hw, hd, by rw [ht]; exact h⟩))

/-- A command leaves the schedule as it is. -/
theorem exec_sched {i : Instr} {s t : State} (h : exec i s = .next t) : t.sched = s.sched := by
  cases exec_effect h with
  | write reg d r =>
    obtain ⟨_, _, _, _, _, _, _, _, _, _, _, e, -⟩ := writeReg_spec r d s
    rw [e]
  | derive f g t hi hp hd => rcases deriveState_spec hd with ⟨p, rfl⟩ | ⟨w, rfl⟩ <;> rfl
  | dcd d l =>
    obtain ⟨r, bs, e, -⟩ := dcdStep_spec l s
    rw [e]
  | hcd d l =>
    obtain ⟨_, _, _, bs, e, -⟩ := hcdStep_spec l s
    rw [e]
  | tpd b =>
    rcases tpdByte_spec b s with ⟨c, -, e⟩ | ⟨-, e⟩ | ⟨v, hb, win, bs, -, e, -⟩ <;> rw [e]
    exact (raiseFault_frame c _ s).2.2.2.2.2.2.2.2.2.2.2.2.2.2.2.2.2.2.2.2.2.2.2.1
  | _ => first | rfl | simp

/-- A step spends the turn at the head of the schedule and adds none. -/
theorem step_sched {s t : State} (h : step s = .next t) : t.sched = s.sched.tail := by
  have ht : ∀ p ws, (taken s p ws).sched = s.sched.tail := by
    intro p ws
    simp [taken]
  rcases step_cases h with ⟨-, rfl⟩ | ⟨-, rfl⟩ | ⟨p, w, ws, -, -, -, rfl⟩ | ⟨p, w, ws, i, -, -, -, he⟩
  · rcases producerStep_cases { s with sched := s.sched.tail } with ⟨_, _, -, -, -, e⟩ | ⟨-, -, e⟩ | ⟨-, -, e⟩ <;>
      rw [e]
    rfl
  · rfl
  · rcases illegalWord_cases w (taken s p ws) with ⟨-, e⟩ | ⟨-, e⟩ <;> rw [e] <;> simp [ht]
  · rw [exec_sched he, ht]

end Sys2Proof.Machine
end

