-- ==== Sys2Proof/Laws/Drain.lean ====
section
/-! SUPPORT. The loop `snk.drain`: what it issues, and one lemma for each way its run goes on or ends. -/

namespace Sys2Proof.Machine

/-- `snk.drain` issues SNK.GET exactly as long as every response so far has had KIND 0. -/
theorem nextDrainCommand_eq (rs : List Response) :
    nextDrainCommand rs = if rs.all drainGoesOn then some .snkGet else none := by
  induction rs with
  | nil => rfl
  | cons r rs ih => cases h : drainGoesOn r <;> simp_all [nextDrainCommand, pseudoSnkDrain]

@[simp] theorem drainGoesOn_bit (b : BitCode) : drainGoesOn (.bit b) = true := rfl
@[simp] theorem drainGoesOn_eos : drainGoesOn .eos = false := rfl
@[simp] theorem drainGoesOn_fault : drainGoesOn .fault = false := rfl

/-- The drain ends where a response with KIND other than 0 has come. -/
theorem drainFrom_ended {start : Nat} {s : State} (k : Nat)
    (h : (consumerResponsesSince start s).all drainGoesOn = false) : drainFrom start k s = .next s := by
  cases k <;> simp [drainFrom, nextDrainCommand_eq, h]

/-- Until then each of its steps is a step of the system, with SNK.GET issued if none is waiting. -/
theorem drainFrom_goes_on {start : Nat} {s t : State} (k : Nat)
    (h : (consumerResponsesSince start s).all drainGoesOn = true) (hs : step (issueWhenAnswered .snkGet s) = .next t) :
    drainFrom start (k + 1) s = drainFrom start k t := by
  simp [drainFrom, nextDrainCommand_eq, h, hs, goOn]

/-- A drain begins at once where nothing the consumer issued is waiting. -/
theorem snkDrain_begins {s : State} (k : Nat) (h : s.consumerQ = []) :
    snkDrain k s = drainFrom s.responses.length k s := by
  cases k <;> simp [snkDrain, drainFrom, h]

end Sys2Proof.Machine
end

