-- ==== Sys2Proof/Laws/Encode.lean ====
section
/-! SUPPORT. Encoded words and decoded fields as numbers, and each row's mask test as a statement about fields: with these, facts
about encodings are linear arithmetic. -/

namespace Sys2Proof

/-- Concatenation as a number. -/
theorem toNat_cat {m n : Nat} (x : BitVec m) (y : BitVec n) : (x ++ y).toNat = x.toNat * 2 ^ n + y.toNat := by
  rw [BitVec.toNat_append, ← Nat.shiftLeft_add_eq_or_of_lt y.isLt, Nat.shiftLeft_eq]

/-- A field as a number. -/
theorem toNat_field (w : Word) (k n : Nat) : (w.extractLsb' k n).toNat = w.toNat / 2 ^ k % 2 ^ n := by
  rw [BitVec.extractLsb'_toNat, Nat.shiftRight_eq_div_pow]

/-- A field's value as a statement about the word's number. -/
theorem field_eq_iff (w : Word) (k n : Nat) (v : BitVec n) :
    w.extractLsb' k n = v ↔ w.toNat / 2 ^ k % 2 ^ n = v.toNat := by
  rw [← BitVec.toNat_inj, toNat_field]

theorem toNat_encode_cfgWrite (reg : Byte) (data : Half) :
    (encode (.cfgWrite reg data)).toNat = 0x10000000 + reg.toNat * 0x10000 + data.toNat := by
  have h : (encode (.cfgWrite reg data)).toNat = ((0x1#4 ++ 0x0#4) ++ reg ++ data).toNat := rfl
  rw [h, toNat_cat, toNat_cat]
  simp
  omega

theorem toNat_encode_cfgRead (reg : Byte) : (encode (.cfgRead reg)).toNat = 0x20000000 + reg.toNat * 0x10000 := by
  have h : (encode (.cfgRead reg)).toNat = ((0x2#4 ++ 0x0#4) ++ reg ++ 0#16).toNat := rfl
  rw [h, toNat_cat, toNat_cat]
  simp
  omega

theorem toNat_encode_cfgDerive (f : BitVec 3) :
    (encode (.cfgDerive f)).toNat = 0x30000000 + f.toNat * 0x10000 := by
  have h : (encode (.cfgDerive f)).toNat = ((0x3#4 ++ 0x0#4 ++ 0#5) ++ f ++ 0#16).toNat := rfl
  rw [h, toNat_cat, toNat_cat]
  simp
  omega

theorem toNat_encode_qClassify (d : Half) : (encode (.qClassify d)).toNat = 0x50000000 + d.toNat := by
  have h : (encode (.qClassify d)).toNat = ((0x5#4 ++ 0x0#12) ++ d).toNat := rfl
  rw [h, toNat_cat]
  simp

theorem toNat_encode_srcSample (d : Half) : (encode (.srcSample d)).toNat = 0x60000000 + d.toNat := by
  have h : (encode (.srcSample d)).toNat = ((0x6#4 ++ 0x0#12) ++ d).toNat := rfl
  rw [h, toNat_cat]
  simp

theorem toNat_encode_srcByte (b : Byte) : (encode (.srcByte b)).toNat = 0x70000000 + b.toNat := by
  have h : (encode (.srcByte b)).toNat = ((0x7#4 ++ 0x0#20) ++ b).toNat := rfl
  rw [h, toNat_cat]
  simp

/-- The mask of F_RD: bits [31:24] (R81). -/
theorem mask_rd_iff (w : Word) : w &&& 0xFF000000#32 = 0x10000000#32 ↔ w.extractLsb' 24 8 = 0x10#8 := by
  constructor
  · intro h
    ext i hi
    have := congrArg (·.getLsbD (24 + i)) h
    simp only [BitVec.getLsbD_and] at this
    simp only [BitVec.getElem_extractLsb']
    interval_cases i <;> simpa using this
  · intro h
    ext i hi
    have := congrArg (·.getLsbD (i - 24)) h
    clear h
    simp only [BitVec.getLsbD_extractLsb'] at this
    interval_cases i <;> simp_all

/-- The mask of F_R: bits [31:24] and [15:0] (R81). -/
theorem mask_r_iff (w : Word) :
    w &&& 0xFF00FFFF#32 = 0x20000000#32 ↔ w.extractLsb' 24 8 = 0x20#8 ∧ w.extractLsb' 0 16 = 0#16 := by
  constructor
  · intro h
    refine ⟨?_, ?_⟩ <;> ext i hi
    · have := congrArg (·.getLsbD (24 + i)) h
      simp only [BitVec.getLsbD_and] at this
      simp only [BitVec.getElem_extractLsb']
      interval_cases i <;> simpa using this
    · have := congrArg (·.getLsbD (0 + i)) h
      simp only [BitVec.getLsbD_and] at this
      simp only [BitVec.getElem_extractLsb']
      interval_cases i <;> simpa using this
  · rintro ⟨h1, h2⟩
    ext i hi
    have h1' := congrArg (·.getLsbD (i - 24)) h1
    have h2' := congrArg (·.getLsbD i) h2
    clear h1 h2
    simp only [BitVec.getLsbD_extractLsb'] at h1' h2'
    interval_cases i <;> simp_all

/-- The mask of F_FMT: bits [31:19] and [15:0] (R81). -/
theorem mask_fmt_iff (w : Word) :
    w &&& 0xFFF8FFFF#32 = 0x30000000#32 ↔ w.extractLsb' 19 13 = 0x600#13 ∧ w.extractLsb' 0 16 = 0#16 := by
  constructor
  · intro h
    refine ⟨?_, ?_⟩ <;> ext i hi
    · have := congrArg (·.getLsbD (19 + i)) h
      simp only [BitVec.getLsbD_and] at this
      simp only [BitVec.getElem_extractLsb']
      interval_cases i <;> simpa using this
    · have := congrArg (·.getLsbD (0 + i)) h
      simp only [BitVec.getLsbD_and] at this
      simp only [BitVec.getElem_extractLsb']
      interval_cases i <;> simpa using this
  · rintro ⟨h1, h2⟩
    ext i hi
    have h1' := congrArg (·.getLsbD (i - 19)) h1
    have h2' := congrArg (·.getLsbD i) h2
    clear h1 h2
    simp only [BitVec.getLsbD_extractLsb'] at h1' h2'
    interval_cases i <;> simp_all

/-- The mask of F_D16, for Q.CLASSIFY: bits [31:16] (R81). -/
theorem mask_classify_iff (w : Word) : w &&& 0xFFFF0000#32 = 0x50000000#32 ↔ w.extractLsb' 16 16 = 0x5000#16 := by
  constructor
  · intro h
    ext i hi
    have := congrArg (·.getLsbD (16 + i)) h
    simp only [BitVec.getLsbD_and] at this
    simp only [BitVec.getElem_extractLsb']
    interval_cases i <;> simpa using this
  · intro h
    ext i hi
    have := congrArg (·.getLsbD (i - 16)) h
    clear h
    simp only [BitVec.getLsbD_extractLsb'] at this
    interval_cases i <;> simp_all

/-- The mask of F_D16, for SRC.SAMPLE: bits [31:16] (R81). -/
theorem mask_sample_iff (w : Word) : w &&& 0xFFFF0000#32 = 0x60000000#32 ↔ w.extractLsb' 16 16 = 0x6000#16 := by
  constructor
  · intro h
    ext i hi
    have := congrArg (·.getLsbD (16 + i)) h
    simp only [BitVec.getLsbD_and] at this
    simp only [BitVec.getElem_extractLsb']
    interval_cases i <;> simpa using this
  · intro h
    ext i hi
    have := congrArg (·.getLsbD (i - 16)) h
    clear h
    simp only [BitVec.getLsbD_extractLsb'] at this
    interval_cases i <;> simp_all

/-- The mask of F_D8: bits [31:8] (R81). -/
theorem mask_d8_iff (w : Word) : w &&& 0xFFFFFF00#32 = 0x70000000#32 ↔ w.extractLsb' 8 24 = 0x700000#24 := by
  constructor
  · intro h
    ext i hi
    have := congrArg (·.getLsbD (8 + i)) h
    simp only [BitVec.getLsbD_and] at this
    simp only [BitVec.getElem_extractLsb']
    interval_cases i <;> simpa using this
  · intro h
    ext i hi
    have := congrArg (·.getLsbD (i - 8)) h
    clear h
    simp only [BitVec.getLsbD_extractLsb'] at this
    interval_cases i <;> simp_all

/-- The mask of F_N: every bit (R81). -/
theorem mask_n_iff (w p : Word) : w &&& 0xFFFFFFFF#32 = p ↔ w = p := by
  rw [show (0xFFFFFFFF#32 : Word) = BitVec.allOnes 32 from rfl, BitVec.and_allOnes]

/-! ## FINFO of an interface fault: word[31:16] of each command that can raise one (R263) -/

/-- The high half as a number. -/
theorem cmdHigh_toNat (i : Instr) : (cmdHigh i).toNat = (encode i).toNat / 0x10000 := by
  rw [show cmdHigh i = (encode i).extractLsb' 16 16 from rfl, toNat_field]
  have := (encode i).isLt
  omega

theorem cmdHigh_cfgWrite (reg : Byte) (d : Half) : cmdHigh (.cfgWrite reg d) = 0x10#8 ++ reg := by
  rw [← BitVec.toNat_inj, cmdHigh_toNat, toNat_encode_cfgWrite, toNat_cat]
  have := d.isLt
  simp
  omega

theorem cmdHigh_cfgRead (reg : Byte) : cmdHigh (.cfgRead reg) = 0x20#8 ++ reg := by
  rw [← BitVec.toNat_inj, cmdHigh_toNat, toNat_encode_cfgRead, toNat_cat]
  simp
  omega

theorem cmdHigh_cfgDerive (f : BitVec 3) : cmdHigh (.cfgDerive f) = 0x300#12 ++ 0#1 ++ f := by
  rw [← BitVec.toNat_inj, cmdHigh_toNat, toNat_encode_cfgDerive, toNat_cat, toNat_cat]
  simp
  omega

theorem cmdHigh_srcSample (d : Half) : cmdHigh (.srcSample d) = 0x6000#16 := by
  rw [← BitVec.toNat_inj, cmdHigh_toNat, toNat_encode_srcSample]
  have := d.isLt
  simp
  omega

theorem cmdHigh_srcByte (b : Byte) : cmdHigh (.srcByte b) = 0x7000#16 := by
  rw [← BitVec.toNat_inj, cmdHigh_toNat, toNat_encode_srcByte]
  have := b.isLt
  simp
  omega

theorem cmdHigh_ctlStart : cmdHigh .ctlStart = 0x4000#16 := by decide

theorem cmdHigh_srcEof : cmdHigh .srcEof = 0x8000#16 := by decide

end Sys2Proof
end

