-- ==== Sys2Proof/Laws/PerInstr.lean ====
section
/-! SUPPORT. Facts said of every command, one lemma per constructor of Instr: a command's own word lies in its own row of the opcode
map. -/

namespace Sys2Proof.Laws.EncodeMatch

/-- The word of a command has the OP of the command's row and passes the row's mask check (R81, R89, R96). -/
def Statement (i : Instr) : Prop :=
  ∃ r ∈ opcodeTable, r.mnemonic = rowMnemonic i ∧ opField (encode i) = r.op ∧ encode i &&& r.mask = r.pattern

theorem cfgWrite (reg : Byte) (data : Half) : Statement (.cfgWrite reg data) := by
  refine ⟨⟨"CFG.WRITE", 0x1, 0x10000000, 0xFF000000⟩, by simp [opcodeTable], rfl, ?_, ?_⟩
  · rw [opField, field_eq_iff, toNat_encode_cfgWrite]
    simp only [BitVec.ofNat_eq_ofNat, BitVec.toNat_ofNat]
    omega
  · rw [show encode (.cfgWrite reg data) &&& (0xFF000000 : Word) = (0x10000000 : Word) ↔ _ from mask_rd_iff _,
      field_eq_iff, toNat_encode_cfgWrite]
    simp only [BitVec.toNat_ofNat]
    omega

theorem cfgRead (reg : Byte) : Statement (.cfgRead reg) := by
  refine ⟨⟨"CFG.READ", 0x2, 0x20000000, 0xFF00FFFF⟩, by simp [opcodeTable], rfl, ?_, ?_⟩
  · rw [opField, field_eq_iff, toNat_encode_cfgRead]
    simp only [BitVec.ofNat_eq_ofNat, BitVec.toNat_ofNat]
    omega
  · rw [show encode (.cfgRead reg) &&& (0xFF00FFFF : Word) = (0x20000000 : Word) ↔ _ from mask_r_iff _,
      field_eq_iff, field_eq_iff, toNat_encode_cfgRead]
    simp only [BitVec.toNat_ofNat]
    omega

theorem cfgDerive (fmt : BitVec 3) : Statement (.cfgDerive fmt) := by
  refine ⟨⟨"CFG.DERIVE", 0x3, 0x30000000, 0xFFF8FFFF⟩, by simp [opcodeTable], rfl, ?_, ?_⟩
  · rw [opField, field_eq_iff, toNat_encode_cfgDerive]
    simp only [BitVec.ofNat_eq_ofNat, BitVec.toNat_ofNat]
    omega
  · rw [show encode (.cfgDerive fmt) &&& (0xFFF8FFFF : Word) = (0x30000000 : Word) ↔ _ from mask_fmt_iff _,
      field_eq_iff, field_eq_iff, toNat_encode_cfgDerive]
    simp only [BitVec.toNat_ofNat]
    omega

theorem ctlStart : Statement .ctlStart := by
  unfold Statement
  decide

theorem qClassify (data : Half) : Statement (.qClassify data) := by
  refine ⟨⟨"Q.CLASSIFY", 0x5, 0x50000000, 0xFFFF0000⟩, by simp [opcodeTable], rfl, ?_, ?_⟩
  · rw [opField, field_eq_iff, toNat_encode_qClassify]
    simp only [BitVec.ofNat_eq_ofNat, BitVec.toNat_ofNat]
    omega
  · rw [show encode (.qClassify data) &&& (0xFFFF0000 : Word) = (0x50000000 : Word) ↔ _ from mask_classify_iff _,
      field_eq_iff, toNat_encode_qClassify]
    simp only [BitVec.toNat_ofNat]
    omega

theorem srcSample (data : Half) : Statement (.srcSample data) := by
  refine ⟨⟨"SRC.SAMPLE", 0x6, 0x60000000, 0xFFFF0000⟩, by simp [opcodeTable], rfl, ?_, ?_⟩
  · rw [opField, field_eq_iff, toNat_encode_srcSample]
    simp only [BitVec.ofNat_eq_ofNat, BitVec.toNat_ofNat]
    omega
  · rw [show encode (.srcSample data) &&& (0xFFFF0000 : Word) = (0x60000000 : Word) ↔ _ from mask_sample_iff _,
      field_eq_iff, toNat_encode_srcSample]
    simp only [BitVec.toNat_ofNat]
    omega

theorem srcByte (byte : Byte) : Statement (.srcByte byte) := by
  refine ⟨⟨"SRC.BYTE", 0x7, 0x70000000, 0xFFFFFF00⟩, by simp [opcodeTable], rfl, ?_, ?_⟩
  · rw [opField, field_eq_iff, toNat_encode_srcByte]
    simp only [BitVec.ofNat_eq_ofNat, BitVec.toNat_ofNat]
    omega
  · rw [show encode (.srcByte byte) &&& (0xFFFFFF00 : Word) = (0x70000000 : Word) ↔ _ from mask_d8_iff _,
      field_eq_iff, toNat_encode_srcByte]
    simp only [BitVec.toNat_ofNat]
    omega

theorem srcEof : Statement .srcEof := by
  unfold Statement
  decide

theorem snkGet : Statement .snkGet := by
  unfold Statement
  decide

theorem ctlAbort : Statement .ctlAbort := by
  unfold Statement
  decide

theorem ctlReset : Statement .ctlReset := by
  unfold Statement
  decide

end Sys2Proof.Laws.EncodeMatch
end

