-- ==== Sys2Proof/Laws/TimerPulse.lean ====
section
/-! SUPPORT. The window of the timer-pulse demodulator, cell by cell (R175 to R177), and what inverting the polarity of a value leaves
alone (R182). -/

namespace Sys2Proof.Machine

/-- Cell i of a window is the pair of its values 2i and 2i + 1 (R175). -/
theorem cellsOf_getElem? : ∀ (k : Nat) (win : List Half), win.length = 2 * k → ∀ i < k,
    (cellsOf win)[i]? = some (win.getD (2 * i) 0, win.getD (2 * i + 1) 0)
  | k + 1, x :: y :: rest, h, 0, _ => by simp [cellsOf]
  | k + 1, x :: y :: rest, h, i + 1, hi => by
    have := cellsOf_getElem? k rest (by simp only [List.length_cons] at h; omega) i (by omega)
    simp only [cellsOf, List.getElem?_cons_succ, this]
    rfl
  | k + 1, [], h, _, _ => by simp at h
  | k + 1, [_], h, _, _ => by simp only [List.length_cons, List.length_nil] at h; omega
  | 0, _, _, i, hi => by omega

/-- The polarity check on a full window, cell by cell (R177). -/
theorem polarityOk_iff (rev : Bool) (win : List Half) (h : win.length = 22) :
    polarityOk rev win = true ↔
      ∀ i < 11, (win.getD (2 * i) 0).getLsbD 15 = rev ∧ (win.getD (2 * i + 1) 0).getLsbD 15 = !rev := by
  have hl := cellsOf_length 11 win h
  have hg := cellsOf_getElem? 11 win h
  simp only [polarityOk, List.all_eq_true, polarity, Bool.and_eq_true, beq_iff_eq]
  constructor
  · intro hall i hi
    have hm := List.mem_of_getElem? (hg i hi)
    generalize win.getD (2 * i) 0 = a at hm ⊢
    generalize win.getD (2 * i + 1) 0 = b at hm ⊢
    exact hall (a, b) hm
  · intro hall c hc
    obtain ⟨i, hi, rfl⟩ := List.mem_iff_getElem.1 hc
    have hgi := hg i (by omega)
    rw [List.getElem?_eq_getElem hi] at hgi
    have hp := hall i (by omega)
    generalize win.getD (2 * i) 0 = a at hgi hp
    generalize win.getD (2 * i + 1) 0 = b at hgi hp
    rw [Option.some.inj hgi]
    exact hp

/-- All cells have a class, and these are the classes (R175). -/
theorem cellClasses_eq_some_iff (s : State) : ∀ (cs : List (Half × Half)) (bits : List BitCode),
    cellClasses s cs = some bits ↔ cs.map (cellClass s) = bits.map some
  | [], bits => by cases bits <;> simp [cellClasses]
  | c :: rest, bits => by
    have ih := cellClasses_eq_some_iff s rest
    unfold cellClasses
    cases hc : cellClass s c with
    | none => cases bits <;> simp [hc]
    | some b =>
      cases hr : cellClasses s rest with
      | none =>
        cases bits with
        | nil => simp
        | cons b' bs =>
          simp only [reduceCtorEq, List.map_cons, hc, List.cons.injEq, false_iff, not_and]
          intro _ e
          rw [← ih, hr] at e
          cases e
      | some bs =>
        have hbs := (ih bs).1 hr
        cases bits with
        | nil => simp
        | cons b' bs' =>
          simp only [List.map_cons, hc, hbs, Option.some.injEq, List.cons.injEq]
          exact and_congr_right fun _ =>
            ⟨fun e => by rw [e], fun e => (List.map_injective_iff.2 (Option.some_injective _)) e⟩

/-- Some cell has no class (R175). -/
theorem cellClasses_eq_none_iff (s : State) (cs : List (Half × Half)) :
    cellClasses s cs = none ↔ ∃ c ∈ cs, cellClass s c = none := by
  induction cs with
  | nil => simp [cellClasses]
  | cons c rest ih =>
    unfold cellClasses
    cases hc : cellClass s c with
    | none => simp [hc]
    | some b => cases hr : cellClasses s rest <;> simp_all

/-! ## Inverting a value's polarity -/

/-- Inverting the polarity leaves the magnitude (R182). -/
@[simp] theorem magnitude_invertValue (v : Half) : magnitude (invertValue v) = magnitude v := by
  unfold magnitude invertValue
  congr 1
  ext i hi
  simp only [BitVec.getElem_extractLsb', BitVec.getLsbD_xor]
  interval_cases i <;> simp

/-- Inverting the polarity inverts the polarity (R182). -/
@[simp] theorem polarity_invertValue (v : Half) : polarity (invertValue v) = !polarity v := by
  simp [polarity, invertValue]

/-- Inverting bit 7 of the high byte inverts the value's polarity (R62, R182). -/
theorem joinValue_invert (hb b : Byte) : joinValue (hb ^^^ 0x80#8) b = invertValue (joinValue hb b) := by
  unfold joinValue invertValue
  ext i hi
  simp only [BitVec.getElem_xor, BitVec.getElem_append]
  interval_cases i <;> simp

/-- The cells of a window whose values are all changed alike. -/
theorem cellsOf_map (f : Half → Half) :
    ∀ w : List Half, cellsOf (w.map f) = (cellsOf w).map fun c => (f c.1, f c.2)
  | [] => rfl
  | [_] => rfl
  | x :: y :: r => by simp [cellsOf, cellsOf_map f r]

end Sys2Proof.Machine
end

