-- ==== Sys2Proof/Tests/Slice0.lean ====
section
/-! SUPPORT. Tests, each about one step, and a witness for the hypotheses of every statement of Obligations.lean. Expected values are
those of spec/95_test_vectors.md, under the vector's name, or worked by hand from the rule named. -/

namespace Sys2Proof.Tests

open Sys2Proof.Machine

/-! ## States -/

/-- Reset with TPD_MARGIN at 4, so that it can be compared. -/
def idle : State := { State.reset with tmargin := 4 }

/-- A run in DCD mode at depth 8 with N1 = 6, N0 = 2 (95, section 2.2). -/
def dcd : State := { idle with phase := .running, ctrl := 0x0821, n1 := 6, n0 := 2 }

/-- A run in HCD mode at depth 8 with Zero [8, 12], One [4, 6] (95, section 2.3). -/
def hcd : State :=
  { idle with phase := .running, ctrl := 0x0822, zmin := 8, zmax := 12, omin := 4, omax := 6 }

/-- A run in TPD mode with the header complete (95, section 3, P3). -/
def tpd : State := { idle with phase := .running, ctrl := 0x0003, hidx := 18 }

/-- Draining with a full slot and one staged bit. -/
def draining : State :=
  { idle with phase := .draining, ctrl := 0x0821, outq := [.one], slotFull := true, slotVal := .error }

/-- Done, with the last bit still in the slot (95, L2-CH-2). -/
def done : State := { idle with phase := .done, ctrl := 0x0821, closed := true, slotFull := true }

/-- Faulted by a locked write (95, L2-PH-7). -/
def faulted : State := { idle with phase := .faulted, ctrl := 0x0821, fcode := 2, finfo := 0x1006 }

/-- The frame G of 95, section 2.4: the cells 0,1,0,0,0,0,0,1,0,1,1. -/
def frameG : List Half :=
  [0x000B, 0x800B, 0x0018, 0x8018, 0x000B, 0x800B, 0x000B, 0x800B, 0x000B, 0x800B, 0x000B] ++
  [0x800B, 0x000B, 0x800B, 0x0018, 0x8018, 0x000B, 0x800B, 0x0018, 0x8018, 0x0018, 0x8018]

/-- The bits of the frame G. -/
def bitsG : List BitCode := [.zero, .one, .zero, .zero, .zero, .zero, .zero, .one, .zero, .one, .one]

/-- A window one value short of the frame G, with the last value's high byte held. -/
def tpd21 : State := { tpd with w := frameG.take 21, hbValid := true, hb := 0x80 }

/-- A check of an answer's next state. -/
def next (o : Host.Outcome State Fault Refusal) (p : State → Bool) : Bool :=
  match o with
  | .next t => p t
  | .fault _ => false
  | .refused _ => false

/-- STATUS of a state. -/
def status (s : State) : Nat := (readReg .status s).toNat

/-! ## Operand legality: an ill-formed term for each check -/

theorem test_wellFormed_refuses_write_to_read_only : (Instr.cfgWrite 0x01 0).wellFormed = false := by decide
theorem test_wellFormed_refuses_write_to_reserved : (Instr.cfgWrite 0xFF 0).wellFormed = false := by decide
theorem test_wellFormed_refuses_read_of_reserved : (Instr.cfgRead 0x16).wellFormed = false := by decide
theorem test_wellFormed_refuses_reserved_format : (Instr.cfgDerive 5).wellFormed = false := by decide
theorem test_wellFormed_accepts_the_edges :
    (Instr.cfgWrite 0x0E 0).wellFormed ∧ (Instr.cfgRead 0x15).wellFormed ∧ (Instr.cfgDerive 4).wellFormed := by decide
theorem test_wellFormed_is_a_named_operand :
    ∀ n < 24, (Instr.cfgWrite (BitVec.ofNat 8 n) 0).wellFormed = (rwRegOfIndex (BitVec.ofNat 8 n)).isSome ∧
      (Instr.cfgRead (BitVec.ofNat 8 n)).wellFormed = (regOfIndex (BitVec.ofNat 8 n)).isSome := by decide

/-! ## Decoding: words written out from R81 and R93, bit by bit -/

theorem test_decode_cfgWrite : decodeWord 0b0001_0000_00001110_0000000000001100#32 = some (.cfgWrite 0x0E 12) := by decide
theorem test_decode_cfgRead : decodeWord 0b0010_0000_00010101_0000000000000000#32 = some (.cfgRead 0x15) := by decide
theorem test_decode_cfgDerive : decodeWord 0b0011_0000_00000_100_0000000000000000#32 = some (.cfgDerive 4) := by decide
theorem test_decode_ctlStart : decodeWord 0b0100_0000_00000000_0000000000000000#32 = some .ctlStart := by decide
theorem test_decode_qClassify : decodeWord 0b0101_0000_00000000_1000000000000001#32 = some (.qClassify 0x8001) := by decide
theorem test_decode_srcSample : decodeWord 0b0110_0000_00000000_0100000000000010#32 = some (.srcSample 0x4002) := by decide
theorem test_decode_srcByte : decodeWord 0b0111_0000_00000000_00000000_10000001#32 = some (.srcByte 0x81) := by decide
theorem test_decode_srcEof : decodeWord 0b1000_0000_00000000_0000000000000000#32 = some .srcEof := by decide
theorem test_decode_snkGet : decodeWord 0b1001_0000_00000000_0000000000000000#32 = some .snkGet := by decide
theorem test_decode_ctlAbort : decodeWord 0b1010_0000_00000000_0000000000000000#32 = some .ctlAbort := by decide
theorem test_decode_ctlReset : decodeWord 0b1011_0000_00000000_0000000000000000#32 = some .ctlReset := by decide

/-- L2-ILL-1 to L2-ILL-9. -/
theorem test_decode_refuses_illegal_words :
    ([0x00000000#32, 0xC0000000#32, 0xF1234567#32, 0x41000000#32, 0x20000001#32, 0x50010000#32, 0x90000001#32,
      0x30080000#32, 0x70000100#32].map decodeWord).all (·.isNone) = true := by decide

/-- R93: the assembler's words. -/
theorem test_encode_matches_the_syntax_table :
    encode (.cfgWrite 0x00 0x0821) = 0x10000821#32 ∧ encode (.cfgRead 0x0C) = 0x200C0000#32 ∧
    encode (.cfgDerive 1) = 0x30010000#32 ∧ encode (.qClassify 0xCCCC) = 0x5000CCCC#32 ∧
    encode (.srcSample 0xFF) = 0x600000FF#32 ∧ encode (.srcByte 0x58) = 0x70000058#32 := by decide

/-- R94: the pseudo-instructions, with the words of 95 (L1-1, L2-HCD, P3). -/
theorem test_pseudo_instructions :
    (pseudoCfgRate 48000).map encode = [0x1004BB80#32, 0x10050000#32] ∧
    (pseudoSrcValue 0x8018).map encode = [0x70000080#32, 0x70000018#32] ∧
    (pseudoSrcRun 0xFF 2).map encode = [0x600000FF#32, 0x600000FF#32] ∧
    pseudoSrcT77Header.length = 18 := by decide

/-- R94: `snk.drain` issues one more SNK.GET after a bit, and none after EOS or FAULT; a first one in any case. -/
theorem test_snk_drain_stops_at_the_first_other_kind :
    pseudoSnkDrain [] = [.snkGet] ∧ pseudoSnkDrain [.bit .one, .bit .error] = [.snkGet, .snkGet, .snkGet] ∧
    pseudoSnkDrain [.bit .one, .eos] = [.snkGet, .snkGet] ∧ nextDrainCommand [.bit .one] = some .snkGet ∧
    nextDrainCommand [.bit .one, .eos] = none := by decide

/-- R94, R202: in FAULTED the drain is one SNK.GET, answered FAULT; a word issued before it is executed before it. -/
theorem test_snk_drain_ends_with_fault :
    next (snkDrain 5 { faulted with sched := [.external .consumer, .external .consumer, .external .consumer] })
      (fun t => t.responses == [(.consumer, .fault)] && t.sched.length == 2) ∧
    next (snkDrain 5 { faulted with consumerQ := [0x200D0000], sched := [.external .consumer, .external .consumer] })
      (fun t => t.responses == [(.consumer, .value 0x0016), (.consumer, .fault)]) := by decide

theorem test_table_word_is_fetched_and_run :
    decodeTableWord 32 0x40000000 = some .ctlStart ∧ decodeTableWord 32 0x00000000 = none ∧
    next (step (State.reset.withFetchWord 32 0x10000821)) (fun t => t.ctrl == 0x0821 && t.hostQ.isEmpty && t.sched.isEmpty) ∧
    next (step (State.reset.withFetchWord 32 0x600000FF)) (fun t => t.fcode == 3 && t.finfo == 0x6000) := by decide

/-! ## One step each -/

/-- L2-CFG-2. -/
theorem test_cfgWrite_drops_reserved_bits : next (exec (.cfgWrite 0x00 0xFFFF) idle) (·.ctrl == 0x3F3F) := by decide
/-- L2-PH-9. -/
theorem test_cfgWrite_read_only_before_lock :
    next (exec (.cfgWrite 0x01 0) dcd) (fun t => t.fcode == 1 && t.finfo == 0x1001 && status t == 0x0004) := by decide
/-- L2-CFG-1. -/
theorem test_cfgRead_tpdLong :
    next (exec (.cfgRead 0x0C) idle) (fun t => t.responses == [(.host, .value 0x0030)]) := by decide
/-- L2-ILL-11. -/
theorem test_cfgRead_reserved :
    next (exec (.cfgRead 0x16) idle)
      (fun t => t.responses == [(.host, .fault)] && t.fcode == 1 && t.finfo == 0x2016 && status t == 0x0004) := by decide
/-- L2-HCD-18: 44100 rounds both bounds inward. -/
theorem test_cfgDerive_kcs_44100 :
    next (exec (.cfgDerive 1) { idle with rate := 44100 })
      (fun t => t.zmin == 8 && t.zmax == 11 && t.omin == 4 && t.omax == 5) := by decide
/-- L2-DCD-22. -/
theorem test_cfgDerive_fb_too_big :
    next (exec (.cfgDerive 0) { idle with rate := 62785404 })
      (fun t => t.fcode == 8 && t.finfo == 0 && t.n1 == 0 && t.n0 == 0) := by decide
/-- L2-TPD-22, L2-TPD-23. -/
theorem test_ctlStart_tpd_margin :
    next (exec .ctlStart { idle with ctrl := 0x0003, tmargin := 12 }) (fun t => status t == 0x0001) ∧
    next (exec .ctlStart { idle with ctrl := 0x0003, tmargin := 13 }) (·.fcode == 7) := by decide
/-- L2-CFG-5. -/
theorem test_ctlStart_encoding_before_depth :
    next (exec .ctlStart { idle with ctrl := 0x0001 }) (fun t => t.fcode == 5 && t.finfo == 0) := by decide
/-- L2-Q-8. -/
theorem test_qClassify_ignores_the_high_byte_at_depth_8 :
    next (exec (.qClassify 0x01B4) { idle with ctrl := 0x0800 }) (fun t => t.responses == [(.host, .level .high)]) := by decide
/-- L2-Q-12. -/
theorem test_qClassify_is_signed_at_depth_16 :
    next (exec (.qClassify 0xCCCC) { idle with ctrl := 0x1000 }) (fun t => t.responses == [(.host, .level .mid)]) := by decide
/-- L2-DCD-9: MID ends a run of N1. -/
theorem test_srcSample_mid_ends_a_run :
    next (exec (.srcSample 0x00B3) { dcd with run := 6 }) (fun t => t.outq == [.one] && t.run == 0) := by decide
/-- L2-HCD-7: a Zero span with a pending half emits ERROR, then 0. -/
theorem test_srcSample_zero_span_with_pending_half :
    next (exec (.srcSample 0x00FF) { hcd with hph := .counting, span := 10, pend := .pendingOne })
      (fun t => t.outq == [.error, .zero] && t.pend == .idle && t.span == 0 && t.hph == .waitLow) := by decide
/-- P3a, step 6: the 22nd value completes the frame. -/
theorem test_srcByte_completes_the_frame :
    next (exec (.srcByte 0x18) tpd21) (fun t => t.outq == bitsG && t.w.isEmpty && !t.hbValid) := by decide
/-- R280 and P4a, step 5. -/
theorem test_srcByte_wrong_version :
    next (exec (.srcByte 0x31) { tpd with hidx := 15 })
      (fun t => t.fcode == 10 && t.finfo == 0x000F && status t == 0x0004 && readReg .tpdPos t == 0x0F00) := by decide
/-- L2-DCD-11. -/
theorem test_srcEof_discards_the_run :
    next (exec .srcEof { dcd with run := 5 }) (fun t => t.run == 0 && t.outq.isEmpty && t.phase == .draining) := by decide
/-- L2-TPD-20. -/
theorem test_srcEof_truncated_header :
    next (exec .srcEof { tpd with hidx := 17 })
      (fun t => t.fcode == 9 && t.finfo == 0x0011 && readReg .tpdPos t == 0x1100 && status t == 0x0004) := by decide
/-- L2-CH-2: the last bit before EOS. -/
theorem test_snkGet_last_bit :
    status done = 0x004B ∧
    next (exec .snkGet done) (fun t => t.responses == [(.host, .bit .zero)] && status t == 0x0043) := by decide
/-- L2-CH-4, last part. -/
theorem test_snkGet_faulted : next (exec .snkGet faulted) (fun t => t.responses == [(.host, .fault)]) := by decide
/-- L2-CH-5: CLOSED is kept. -/
theorem test_ctlAbort_after_done :
    next (exec .ctlAbort { done with slotFull := false }) (fun t => status t == 0x0044 && t.fcode == 11) := by decide
/-- L2-PH-11. -/
theorem test_ctlReset_from_faulted :
    next (exec .ctlReset faulted) (fun t => status t == 0 && t.fcode == 0 && t.finfo == 0 && t.ctrl == 0) := by decide
/-- P3a, step 6: PUSH moves the first of eleven bits. -/
theorem test_push_after_a_frame : status (producerStep { tpd with outq := bitsG }) = 0x1409 := by decide
/-- P1, step 22: CLOSE with the slot full. -/
theorem test_close_keeps_the_slot :
    status (producerStep { dcd with phase := .draining, slotFull := true, slotVal := .zero }) = 0x004B := by decide

/-! ## Witnesses: the hypotheses of each statement can be met, clause by clause -/

/-- One word waiting at a port whose turn it is. -/
def turn (p : Port) (w : Word) (s : State) : State :=
  { setPortQueue p [w] s with sched := [.external p] }

theorem witness_EncodeInvertsDecode : decodeWord 0x3007FFFF#32 = none ∧ decodeWord 0x30070000#32 = some (.cfgDerive 7) := by
  decide
theorem witness_WordIsIllegalExactlyWhenNoRowMatches :
    decodeWord 0x10FFFFFF#32 = some (.cfgWrite 0xFF 0xFFFF) ∧
    ∃ r ∈ opcodeTable, 0x10FFFFFF#32 &&& r.mask = r.pattern := by decide
theorem witness_StepRunsTheDecodedCommand :
    (turn .source 0x600000FF dcd).sched = [.external .source] ∧
    portQueue .source (turn .source 0x600000FF dcd) = [0x600000FF#32] ∧
    decodeWord 0x600000FF#32 = some (.srcSample 0x00FF) ∧
    next (step (turn .source 0x600000FF dcd)) (fun t => t.run == 1 && t.port == .source) := by decide
/-- L2-ILL-5 and L2-ILL-1, and an illegal word in FAULTED. -/
theorem witness_StepHandlesAnIllegalWord :
    decodeWord 0x20000001#32 = none ∧ decodeWord 0x00000000#32 = none ∧
    next (step (turn .host 0x20000001 dcd)) (fun t => t.finfo == 0x2000 && t.responses == [(.host, .fault)]) ∧
    next (step (turn .consumer 0x00000000 dcd)) (fun t => t.fcode == 1 && t.responses.isEmpty) ∧
    next (step (turn .host 0xC0000000 faulted)) (fun t => t.fcode == 2 && t.finfo == 0x1006) := by decide
theorem witness_StepGivesTheProducerItsTurn :
    ({ dcd with sched := [.producer] } : State).sched = .producer :: [] ∧ dcd.sched = [] ∧
    ({ dcd with sched := [.external .consumer] } : State).sched = .external .consumer :: [] ∧
    portQueue .consumer { dcd with sched := [.external .consumer] } = [] := by decide
theorem witness_PushMovesTheOldestStagedBit :
    pushEnabled { draining with slotFull := false } = true ∧
    (producerStep { draining with slotFull := false }).slotVal = .one := by decide
theorem witness_CloseEndsTheRun :
    closeEnabled { draining with outq := [] } = true ∧
    pushEnabled draining = false ∧ closeEnabled draining = false ∧ producerStep draining = draining := by decide
theorem witness_ConfigWriteStoresTheRegister :
    idle.phase = .idle ∧ next (exec (.cfgWrite 0x05 0x03BE) { idle with rate := 0x0000077C }) (·.rate == 62785404) := by
  decide
theorem witness_ConfigWriteRefusals :
    faulted.phase = .faulted ∧ dcd.phase ≠ .faulted ∧ dcd.phase ≠ .idle ∧ (0x0F : Byte) ∉ rwIndices ∧
    (0x0E : Byte) ∈ rwIndices := by decide
/-- L2-ILL-13 and L2-PH-7. -/
theorem witness_ConfigWriteRefusals_codes :
    next (exec (.cfgWrite 0xFF 0) idle) (fun t => t.fcode == 1 && t.finfo == 0x10FF) ∧
    next (exec (.cfgWrite 0x06 6) dcd) (fun t => t.fcode == 2 && t.finfo == 0x1006) := by decide
theorem witness_ConfigReadOfReservedIndexFaults :
    0x15 < (0x16 : Byte).toNat ∧ 0x15 < (0xFF : Byte).toNat ∧ idle.phase ≠ .faulted ∧ faulted.phase = .faulted := by decide
theorem witness_inv_dcd : Inv { dcd with run := 3, outq := [.one], slotFull := true, slotVal := .zero } := by
  constructor <;> constructor <;> decide
theorem witness_inv_hcd : Inv { hcd with hph := .counting, span := 10, pend := .pendingOne } := by
  constructor <;> constructor <;> decide
theorem witness_inv_tpd : Inv tpd21 := by
  constructor <;> constructor <;> decide
theorem witness_inv_faulted : Inv faulted := by
  constructor <;> constructor <;> decide
theorem witness_inv_draining : Inv draining := by
  constructor <;> constructor <;> decide
theorem witness_inv_done : Inv done := by
  constructor <;> constructor <;> decide
/-- P2a, step 15, with PEND set: STATUS = 0x0181 (HPH, PEND, RUNNING). -/
theorem witness_StatusShowsItsFields :
    ChannelInv hcd ∧ status { hcd with hph := .counting, span := 3, pend := .pendingOne } = 0x0181 :=
  ⟨by constructor <;> decide, by decide⟩
/-- P3a: after the 21st value TPD_POS = 0x1215. -/
theorem witness_TpdPosShowsItsFields :
    BlockInv tpd21 ∧ readReg .tpdPos { tpd21 with hbValid := false } = 0x1215 :=
  ⟨witness_inv_tpd.block, by decide⟩
theorem witness_ThresholdRegistersFollowDepth :
    ctrlDepth { idle with ctrl := 0x0800 } = 8 ∧ ctrlDepth { idle with ctrl := 0x1000 } = 16 ∧
    ctrlDepth { idle with ctrl := 0x0C00 } = 12 := by decide
/-- L2-DCD-21, L2-DCD-19. -/
theorem witness_DeriveFbComputesTheThresholds :
    next (exec (.cfgDerive 0) { idle with rate := 62785403 }) (fun t => t.n1 == 65535 && t.n0 == 32749) ∧
    next (exec (.cfgDerive 0) { idle with rate := 2000 }) (fun t => t.n1 == 0 && t.n0 == 0) := by decide
/-- L2-HCD-28, L2-HCD-29. -/
theorem witness_DerivePercentWindowsAreExact :
    next (exec (.cfgDerive 2) { idle with rate := 131071999 })
      (fun t => t.zmin == 43691 && t.zmax == 65535 && t.omin == 21846 && t.omax == 32767) ∧
    next (exec (.cfgDerive 2) { idle with rate := 131072000 }) (fun t => t.fcode == 8 && t.zmax == 0) := by decide
/-- L2-HCD-25, and the edge of the upper bound: 314563199 div 4800 = 65533. -/
theorem witness_DeriveLegacyWindows :
    next (exec (.cfgDerive 3) { idle with rate := 8000 })
      (fun t => t.zmin == 0 && t.zmax == 3 && t.omin == 0 && t.omax == 2) ∧
    next (exec (.cfgDerive 3) { idle with rate := 314563199 }) (·.zmax == 65535) ∧
    next (exec (.cfgDerive 3) { idle with rate := 314563200 }) (·.fcode == 8) := by decide
/-- L2-ILL-10, L2-PH-8. -/
theorem witness_DeriveRefusals :
    4 < (5 : BitVec 3).toNat ∧ (4 : BitVec 3).toNat ≤ 4 ∧
    next (exec (.cfgDerive 5) dcd) (fun t => t.fcode == 1 && t.finfo == 0x3005) ∧
    next (exec (.cfgDerive 0) dcd) (fun t => t.fcode == 2 && t.finfo == 0x3000) := by decide
/-- R155 for 44100, and L2-HCD-26, both in HCD mode. -/
theorem witness_PercentWindowsNeverOverlap :
    next (exec (.cfgDerive 1) { idle with ctrl := 0x0822, rate := 44100 }) (fun t => t.phase == .idle && t.zmin == 8 && t.omax == 5) ∧
    next (exec (.cfgDerive 1) { idle with ctrl := 0x0822, rate := 0 })
      (fun t => t.phase == .idle && ctrlMode t == 2 && ctrlPcm t && depthLegal t) := by decide
/-- A configuration of each mode that passes: L2-CFG-9, 95 section 2.3, L2-TPD-23. -/
theorem witness_StartBeginsTheRun :
    ∀ s ∈ [{ dcd with phase := .idle }, { hcd with phase := .idle }, { idle with ctrl := 0x0003 }],
      s.phase = .idle ∧ next (exec .ctlStart s) (·.phase == .running) := by decide
theorem witness_StartBeginsTheRun_hcd :
    ¬∃ n : Nat, hcd.zmin.toNat ≤ n ∧ n ≤ hcd.zmax.toNat ∧ hcd.omin.toNat ≤ n ∧ n ≤ hcd.omax.toNat := by
  rintro ⟨n, h⟩
  have : hcd.zmin.toNat = 8 ∧ hcd.omax.toNat = 6 := by decide
  omega
theorem witness_StartBeginsTheRun_tpd :
    ¬∃ d : Int, (idle.tlong.toNat : Int) - idle.tmargin.toNat ≤ d ∧ d ≤ idle.tlong.toNat + idle.tmargin.toNat ∧
      (idle.tshort.toNat : Int) - idle.tmargin.toNat ≤ d ∧ d ≤ idle.tshort.toNat + idle.tmargin.toNat := by
  rintro ⟨d, h⟩
  have : idle.tlong.toNat = 0x30 ∧ idle.tshort.toNat = 0x16 ∧ idle.tmargin.toNat = 4 := by decide
  omega
/-- L2-CFG-10, L2-CFG-4, L2-CFG-3, L2-CFG-7, L2-CFG-8. -/
theorem witness_StartChecksInOrder :
    next (exec .ctlStart dcd) (fun t => t.fcode == 3 && t.finfo == 0x4000) ∧
    next (exec .ctlStart idle) (fun t => t.fcode == 4 && t.finfo == 0) ∧
    next (exec .ctlStart { idle with ctrl := 0x0005 }) (fun t => t.fcode == 4 && t.finfo == 5) ∧
    next (exec .ctlStart { idle with ctrl := 0x1821 }) (fun t => t.fcode == 6 && t.finfo == 0x0018) ∧
    next (exec .ctlStart { idle with ctrl := 0x0822 }) (fun t => t.fcode == 7 && t.finfo == 0) := by decide
/-- L2-Q-2 to L2-Q-6, L2-Q-11 to L2-Q-16. -/
theorem witness_QuantizerFollowsTheThresholdTable :
    [0x004B, 0x004C, 0x00B3, 0x00B4].map (quantize · 8) = [some .low, some .mid, some .mid, some .high] ∧
    [0xCCCB, 0xCCCC, 0x3333, 0x3334].map (quantize · 16) = [some .low, some .mid, some .mid, some .high] := by decide
/-- L2-Q-22, L2-Q-23. -/
theorem witness_ClassifyResponds :
    ctrlDepth { idle with ctrl := 0x0800 } = 8 ∧
    next (exec (.qClassify 0) { idle with ctrl := 0x0C00 })
      (fun t => t.fcode == 6 && t.finfo == 0x000C && t.responses == [(.host, .fault)]) ∧
    next (exec (.qClassify 0x80) faulted) (fun t => t.fcode == 2 && t.responses == [(.host, .fault)]) := by decide
theorem witness_RunQuantizesAsClassifyDoes :
    dcd.phase = .running ∧ dcd.outq = [] ∧ ctrlDepth dcd = 8 ∧ ctrlMode dcd = 1 ∧ ctrlMode hcd = 2 := by decide
/-- L2-DCD-1 to L2-DCD-5, L2-DCD-10. -/
theorem witness_DcdSampleStep :
    quantize 0x00B4 (ctrlDepth dcd) = some .high ∧ quantize 0 (ctrlDepth dcd) = some .low ∧
    next (exec (.srcSample 0x00B4) { dcd with run := 6 }) (fun t => t.run == 7 && t.outq.isEmpty) ∧
    next (exec (.srcSample 0) dcd) (· == dcd) ∧
    next (exec (.srcSample 0) { dcd with run := 1 }) (fun t => t.run == 0 && t.outq.isEmpty) ∧
    next (exec (.srcSample 0) { dcd with run := 2 }) (·.outq == [.zero]) ∧
    next (exec (.srcSample 0) { dcd with run := 5 }) (·.outq == [.zero]) ∧
    next (exec (.srcSample 0) { dcd with run := 6 }) (·.outq == [.one]) := by decide
/-- The count at its ceiling stays there (R36). -/
theorem witness_SaturationNeverChangesABit :
    next (exec (.srcSample 0x00FF) { dcd with run := 0xFFFFFFFF }) (·.run == 0xFFFFFFFF) := by decide
/-- L2-HCD-13, L2-HCD-14. -/
theorem witness_HcdSampleStep :
    hcd.hph = .waitLow ∧ quantize 0x80 (ctrlDepth hcd) = some .mid ∧
    next (exec (.srcSample 0x80) hcd) (· == hcd) ∧ next (exec (.srcSample 0x00FF) hcd) (· == hcd) ∧
    next (exec (.srcSample 0) hcd) (fun t => t.span == 1 && t.hph == .counting) ∧
    next (exec (.srcSample 0x80) { hcd with hph := .counting, span := 3 }) (·.span == 4) ∧
    next (exec (.srcSample 0x00FF) { hcd with hph := .counting, span := 6 })
      (fun t => t.pend == .pendingOne && t.span == 0 && t.hph == .waitLow) := by decide
/-- L2-HCD-1 to L2-HCD-6 and L2-HCD-10 to L2-HCD-12: both edges of both windows and one outside, with and without NCP. -/
theorem witness_LookbackMachineFollowsItsTable :
    let p : State := { hcd with pend := .pendingOne }
    [3, 7, 13].map (hcdClassify · p) = [p, p, p] ∧
    [4, 6].map (fun n => (hcdClassify n p).outq) = [[.one], [.one]] ∧
    [8, 12].map (fun n => (hcdClassify n hcd).outq) = [[.zero], [.zero]] ∧
    (hcdClassify 20 { p with ctrl := 0x082A }).pend = .idle := by decide
theorem witness_HcdErrorOnlyBeforeAZero :
    BitCode.error ∈ (hcdStep .high { hcd with hph := .counting, span := 8, pend := .pendingOne }).outq := by decide
theorem witness_AtMostOneWindowHoldsDuringARun :
    Inv hcd ∧ hcd.phase = .running ∧ ctrlMode hcd = 2 ∧ inZero hcd 8 = true ∧ inOne hcd 6 = true :=
  ⟨by constructor <;> constructor <;> decide, by decide⟩
/-- L2-TPD header vectors: the first byte, a wrong one, byte 17, then the two halves of a value. -/
theorem witness_ByteStepChecksTheHeaderThenPairs :
    next (exec (.srcByte 0x58) { tpd with hidx := 0 }) (·.hidx == 1) ∧
    next (exec (.srcByte 0x59) { tpd with hidx := 0 }) (fun t => t.fcode == 9 && t.finfo == 0 && t.hidx == 0) ∧
    next (exec (.srcByte 0x00) { tpd with hidx := 17 }) (·.hidx == 18) ∧
    next (exec (.srcByte 0x12) tpd) (fun t => readReg .tpdPos t == 0x9200) ∧
    next (exec (.srcByte 0x18) { tpd with hbValid := true, hb := 0x80 }) (fun t => t.w == [0x8018] && !t.hbValid) := by decide
/-- R176 with TMARGIN = 4: sums at both edges of [0x2C, 0x34] and [0x12, 0x1A] and one outside each. -/
theorem witness_CellClassByTheSumOfMagnitudes :
    [0x2B, 0x2C, 0x34, 0x35].map (fun d => cellClass tpd (0x0000, 0x8000 ||| d)) = [none, some .one, some .one, none] ∧
    [0x11, 0x12, 0x1A, 0x1B].map (fun d => cellClass tpd (d, 0x8000)) = [none, some .zero, some .zero, none] := by decide
/-- A polarity failure, an unclassified cell, a wrong start marker, a success. -/
theorem witness_WindowAttemptDecidesTheFrame :
    (tpdValue 0x0018 { tpd with w := frameG.take 21 }).w = (frameG.take 21 ++ [0x0018]).drop 1 ∧
    (tpdValue 0x8040 { tpd with w := frameG.take 21 }).w = (frameG.take 21 ++ [0x8040]).drop 2 ∧
    (tpdValue 0x8018 { tpd with w := 0x0018 :: 0x8018 :: (frameG.take 21).drop 2 }).w = (frameG.take 21 ++ [0x8018]).drop 2 ∧
    (tpdValue 0x8018 { tpd with w := frameG.take 21 }).outq = bitsG ∧
    (tpdValue 0x8018 { tpd with w := frameG.take 20 }).w.length = 21 := by decide
theorem witness_ResynchronisationAlwaysAdvances : ({ tpd with w := frameG } : State).w.length = 22 := by decide
/-- P3a and P3b. -/
theorem witness_PolarityInversionDecodesIdentically :
    tpd21.phase = .running ∧ ctrlMode tpd21 = 3 ∧ tpd21.outq = [] ∧
    Mirror tpd21 { tpd21 with ctrl := 0x0013, w := tpd21.w.map invertValue, hb := 0x00 } ∧
    next (exec (.srcByte 0x18) { tpd21 with ctrl := 0x0013, w := tpd21.w.map invertValue, hb := 0x00 })
      (fun t => t.outq == bitsG) := by
  unfold Mirror
  decide
/-- L2-HCD-15, L2-TPD-21, P3 step 10. -/
theorem witness_EndOfInputDiscardsOpenState :
    next (exec .srcEof { hcd with hph := .counting, span := 3, pend := .pendingOne })
      (fun t => t.span == 0 && t.hph == .waitLow && t.pend == .idle && t.outq.isEmpty) ∧
    next (exec .srcEof { tpd with hidx := 0 }) (fun t => t.fcode == 9 && t.finfo == 0) ∧
    next (exec .srcEof tpd21) (fun t => t.w.isEmpty && !t.hbValid && t.phase == .draining) := by decide
/-- L2-PH-1, L2-PH-2, L2-PH-3, L2-PH-4. -/
theorem witness_InputOutOfPlaceRaisesProtocol :
    next (exec (.srcSample 0x00FF) idle) (fun t => t.fcode == 3 && t.finfo == 0x6000) ∧
    next (exec .srcEof idle) (fun t => t.fcode == 3 && t.finfo == 0x8000) ∧
    next (exec (.srcByte 0x58) dcd) (fun t => t.fcode == 3 && t.finfo == 0x7000) ∧
    next (exec (.srcSample 0) tpd) (fun t => t.fcode == 3 && t.finfo == 0x6000) ∧
    next (exec (.srcByte 0x58) faulted) (· == faulted) := by decide
/-- L2-CH-1: the sample waits behind a staged bit, and the end of input does not. -/
theorem witness_BackPressureHoldsInputAtItsPort :
    next (step (turn .source 0x600000FF { dcd with outq := [.zero] }))
      (fun t => t.sourceQ == [0x600000FF] && t.run == 0 && t.sched.isEmpty) ∧
    next (exec .srcEof { dcd with outq := [.zero] }) (·.phase == .draining) := by decide
/-- L2-CH-3, L2-CH-2. -/
theorem witness_SinkGetTakesTheNextBit :
    next (exec .snkGet { dcd with port := .consumer }) (fun t => t.consumerQ == [0x90000000] && t.responses.isEmpty) ∧
    next (exec .snkGet { done with slotFull := false }) (fun t => t.responses == [(.host, .eos)]) := by decide
theorem witness_BitsAreDeliveredInOrder :
    next (step (turn .consumer 0x90000000 draining))
      (fun t => delivered t == [.error] && bitStream t == [.error, .one] && bitStream draining == [.error, .one]) ∧
    next (step (turn .host 0xA0000000 draining)) (fun t => bitStream t == [] && t.phase == .faulted) := by decide
/-- Two bits in the channel and the queue, three rounds. -/
theorem witness_DrainingEndsWithEos :
    next (Sys2Proof.core.run 6
        { draining with sched := drainTurns 3, consumerQ := List.replicate 3 0x90000000#32 })
      (fun t => t.phase == .done && t.consumerQ.isEmpty &&
        t.responses == [(.consumer, .bit .error), (.consumer, .bit .one), (.consumer, .eos)]) ∧
    next (snkDrain 9 { draining with sched := drainTurns 3 ++ [.external .consumer, .producer] })
      (fun t => t.phase == .done && t.consumerQ.isEmpty && t.sched == [.external .consumer, .producer] &&
        t.responses == [(.consumer, .bit .error), (.consumer, .bit .one), (.consumer, .eos)]) := by decide
/-- The same run behind another channel state. -/
theorem witness_EmissionDependsOnInputAlone :
    sameConfig dcd { dcd with slotFull := true, slotVal := .one } ∧
    sameDatapath dcd { dcd with slotFull := true, slotVal := .one } ∧
    next (exec .snkGet { dcd with slotFull := true, slotVal := .one }) (· == { dcd with responses := [(.host, .bit .one)] }) ∧
    next (exec .srcEof { dcd with outq := [.zero] }) (fun t => t.outq == [.zero] && t.phase == .draining) ∧
    next (exec .ctlAbort { dcd with run := 3 }) (fun t => t.run == 3 && t.n1 == 6 && t.phase == .faulted) := by
  unfold sameConfig sameDatapath
  decide
theorem witness_OnlyResetLeavesFaulted :
    ChannelInv (turn .host 0xB0000000 faulted) ∧ nextCommand (turn .host 0xB0000000 faulted) = some .ctlReset ∧
    nextCommand (turn .host 0xA0000000 faulted) ≠ some .ctlReset ∧
    next (step (turn .host 0xA0000000 faulted)) (fun t => t.fcode == 2 && t.phase == .faulted) :=
  ⟨by constructor <;> decide, by decide, by decide, by decide⟩
theorem witness_ConfigurationIsFrozenDuringARun :
    dcd.phase ≠ .idle ∧ nextCommand (turn .host 0x10060007 dcd) = some (.cfgWrite 0x06 7) ∧
    next (step (turn .host 0x10060007 dcd)) (fun t => t.n1 == 6 && t.phase == .faulted) := by decide
/-- START, EOF, CLOSE and RESET each change the phase. -/
theorem witness_PhaseChangesOnlyAsListed :
    next (step (turn .host 0x40000000 { dcd with phase := .idle })) (·.phase == .running) ∧
    next (step (turn .source 0x80000000 dcd)) (·.phase == .draining) ∧
    next (step { draining with outq := [] }) (·.phase == .done) ∧
    next (step (turn .host 0xB0000000 done)) (·.phase == .idle) := by decide
theorem witness_FaultsArePrecise :
    next (exec .srcEof { tpd with hidx := 17 }) (·.phase == .faulted) ∧ tpd.phase ≠ .faulted := by decide
/-- R273: the consumer issues a CFG.READ and gets the response itself. -/
theorem witness_AnyAgentMayIssueAnyCommand :
    next (step (turn .consumer 0x200D0000 idle)) (fun t => t.responses == [(.consumer, .value 0x0016)]) := by decide
theorem witness_EnabledProducerStepIsNotLeftUntaken :
    Inv { draining with slotFull := false, slotVal := .zero, sched := [.external .host] } ∧
    next (Sys2Proof.core.run 1 { draining with slotFull := false, slotVal := .zero, sched := [.external .host] })
      (fun t => pushEnabled t && t.sched.isEmpty) ∧
    next (Sys2Proof.core.run 2 { draining with slotFull := false, slotVal := .zero }) (·.phase == .done) :=
  ⟨by constructor <;> constructor <;> decide, by decide, by decide⟩
/-- P3a, the last byte of the frame as a step. -/
theorem witness_StepKeepsTheBlockInvariant :
    Inv (turn .source 0x70000018 tpd21) ∧
    next (step (turn .source 0x70000018 tpd21)) (fun t => t.outq == bitsG && t.sourceQ.isEmpty) :=
  ⟨by constructor <;> constructor <;> decide, by decide⟩
/-- L2-PH-10: the first fault wins. -/
theorem witness_RaiseFaultRecordsTheFirstFault :
    (raiseFault .abort 0 dcd).fcode = 11 ∧ raiseFault .abort 0 faulted = faulted := by decide
theorem witness_AbortRaisesItsFault : dcd.phase ≠ .faulted ∧ faulted.phase = .faulted := by decide

end Sys2Proof.Tests
end

section
/-! PROOFS. The step of an agent outside the block, one lemma per definition it goes through: the turn is taken, the word is taken from
the port, and the word is decoded. -/

namespace Sys2Proof.Machine

/-- Spending a turn leaves every port's words as they are. -/
@[simp] theorem portQueue_with_sched (p : Port) (turns : List Agent) (s : State) :
    portQueue p { s with sched := turns } = portQueue p s := by
  cases p <;> rfl

/-- A listed turn is taken by the agent at the head of the schedule. -/
theorem takeTurn_of_sched_cons {s : State} {a : Agent} {turns : List Agent} (h : s.sched = a :: turns) :
    takeTurn s = (a, { s with sched := turns }) := by
  simp only [takeTurn, h]

/-- The oldest word leaves its port, and that port is the one the response goes to (R13). -/
theorem takeWord_of_portQueue_cons {s : State} {p : Port} {w : Word} {ws : List Word} (h : portQueue p s = w :: ws) :
    takeWord p s = some (w, { setPortQueue p ws s with port := p }) := by
  simp only [takeWord, h]

/-- On the turn of an agent outside the block the step is that of its port. -/
theorem step_of_external_turn {s : State} {p : Port} {turns : List Agent} (h : s.sched = .external p :: turns) :
    step s = portStep p { s with sched := turns } := by
  simp only [step, takeTurn_of_sched_cons h]

/-- A word that spells a command is executed as that command once it has left its port (R89). -/
theorem portStep_of_decodeWord_some {s : State} {p : Port} {w : Word} {ws : List Word} {i : Instr}
    (hq : portQueue p s = w :: ws) (hd : decodeWord w = some i) :
    portStep p s = exec i { setPortQueue p ws s with port := p } := by
  simp only [portStep, takeWord_of_portQueue_cons hq, hd]

/-- Settles O5: the turn is spent, which leaves the port's words, and then the port executes its oldest one. -/
theorem stepRunsTheDecodedCommand : Obligations.StepRunsTheDecodedCommand := by
  intro s p turns w ws i hs hq hd
  have hq' : portQueue p { s with sched := turns } = w :: ws := by rw [portQueue_with_sched, hq]
  rw [step_of_external_turn hs, portStep_of_decodeWord_some hq' hd]

end Sys2Proof.Machine
end

section
/-! PROOFS. The invariant of the block: it holds at reset, it speaks of the block's state alone, and each way a step can go on
(`step_cases`, `Effect`) keeps it. -/

namespace Sys2Proof.Machine

/-! ## What the invariant looks at -/

/-- Settles O54: each field holds of the reset state by evaluation. -/
theorem resetHasTheInvariant : Obligations.ResetHasTheInvariant := by
  constructor <;> constructor <;> decide

/-- The invariant speaks of the block's state alone. -/
theorem Inv.of_sameBlock {s t : State} (h : Inv s) (hst : sameBlock s t) : Inv t := by
  rw [hst]
  exact ⟨{ h.channel with }, { h.block with }⟩

/-- Responding changes no block state. -/
theorem respond_sameBlock (r : Response) (s : State) : sameBlock s (respond r s) := rfl

/-- Waiting changes no block state. -/
theorem wait_sameBlock (i : Instr) (s : State) : sameBlock s (wait i s) := by
  unfold wait
  cases s.port <;> rfl

/-- A reset block has the block state of power-on reset (R300). -/
theorem resetState_sameBlock (s : State) : sameBlock State.reset (resetState s) := rfl

/-! ## Faults -/

/-- The fault primitive empties the channel (R262). -/
theorem ChannelInv.raiseFault {s : State} (h : ChannelInv s) (c : FaultCode) (info : Half) :
    ChannelInv (raiseFault c info s) := by
  by_cases hp : s.phase = .faulted
  · rwa [raiseFault_of_faulted c info hp]
  · rw [raiseFault_of_not_faulted c info hp]
    constructor <;> simp

/-- The fault primitive records a code of R260 and leaves the datapath to its mode (R25, R262). -/
theorem BlockInv.raiseFault {s : State} (h : BlockInv s) (c : FaultCode) (info : Half) :
    BlockInv (raiseFault c info s) := by
  by_cases hp : s.phase = .faulted
  · rwa [raiseFault_of_faulted c info hp]
  · rw [raiseFault_of_not_faulted c info hp]
    exact
      { h with
        noFault := fun hn => absurd rfl hn
        faultCode := fun _ => faultNumber_range c
        started := by simp
        idleSlot := by simp
        runOwned := fun hm => h.runOwned (.inr (hm.resolve_left (by simp)))
        spanOwned := fun hm => h.spanOwned (.inr (hm.resolve_left (by simp)))
        tpdOwned := fun hm => h.tpdOwned (.inr (hm.resolve_left (by simp))) }

/-- A fault keeps the invariant. -/
theorem Inv.raiseFault {s : State} (h : Inv s) (c : FaultCode) (info : Half) : Inv (raiseFault c info s) :=
  ⟨h.channel.raiseFault c info, h.block.raiseFault c info⟩

/-- An illegal word keeps the invariant (R261). -/
theorem Inv.illegalWord {s : State} (h : Inv s) (w : Word) : Inv (illegalWord w s) := by
  have hf := h.raiseFault .illegal (highHalf w)
  rcases illegalWord_cases w s with ⟨-, e⟩ | ⟨-, e⟩ <;> rw [e]
  · exact hf.of_sameBlock (respond_sameBlock _ _)
  · exact hf

/-! ## The phases of a run -/

/-- A block that has not faulted may enter any phase of a run under a configuration CTL.START accepts: the datapath belongs to
the mode, whatever the phase (R22, R25). -/
theorem BlockInv.advance {s : State} (h : BlockInv s) (hs : s.phase ≠ .faulted) (hstart : startFault s = none)
    {p : Phase} (hp : p = .running ∨ p = .draining ∨ p = .done) : BlockInv { s with phase := p } := by
  have hidle : p ≠ .idle := by rcases hp with rfl | rfl | rfl <;> simp
  have hfaulted : p ≠ .faulted := by rcases hp with rfl | rfl | rfl <;> simp
  exact
    { h with
      noFault := fun _ => h.noFault hs
      faultCode := fun hf => absurd hf hfaulted
      started := fun _ => hstart
      idleSlot := fun hi => absurd hi hidle
      runOwned := fun ho => h.runOwned (.inr (ho.resolve_left hidle))
      spanOwned := fun ho => h.spanOwned (.inr (ho.resolve_left hidle))
      tpdOwned := fun ho => h.tpdOwned (.inr (ho.resolve_left hidle)) }

/-! ## The channel's steps -/

/-- Taking the bit from the slot leaves code 0 there (R202). -/
theorem Inv.take {s : State} (h : Inv s) : Inv { s with slotFull := false, slotVal := .zero } where
  channel :=
    { h.channel with
      slotEmpty := fun _ => rfl
      faultedEmpty := fun hp => ⟨rfl, (h.channel.faultedEmpty hp).2⟩ }
  block := { h.block with idleSlot := fun _ => rfl }

/-- PUSH happens during a run only, and shortens OUTQ (R203). -/
theorem Inv.push {s : State} (h : Inv s) {b : BitCode} {rest : List BitCode}
    (hp : s.phase = .running ∨ s.phase = .draining) (hq : s.outq = b :: rest) :
    Inv { s with slotVal := b, slotFull := true, outq := rest } where
  channel :=
    { h.channel with
      slotEmpty := by simp
      faultedEmpty := by rcases hp with hp | hp <;> simp [hp]
      restingEmpty := by rcases hp with hp | hp <;> simp [hp]
      outqBound := by
        have hle := h.channel.outqBound
        simp only [hq, List.length_cons] at hle
        show rest.length ≤ 11
        omega }
  block := { h.block with idleSlot := by rcases hp with hp | hp <;> simp [hp] }

/-- CLOSE ends a draining run whose OUTQ is empty (R204). -/
theorem Inv.close {s : State} (h : Inv s) (hp : s.phase = .draining) (hq : s.outq = []) : Inv (close s) where
  channel :=
    { h.channel with
      faultedEmpty := by simp
      doneClosed := fun _ => rfl
      closedPhase := fun _ => .inl rfl
      restingEmpty := fun _ => hq }
  block := { h.block.advance (by simp [hp]) (h.block.started (.inr (.inl hp))) (p := .done) (by simp) with }

/-- The producer's turn keeps the invariant. -/
theorem Inv.producerStep {s : State} (h : Inv s) : Inv (producerStep s) := by
  rcases producerStep_cases s with ⟨b, rest, hp, -, hq, e⟩ | ⟨hp, hq, e⟩ | ⟨-, -, e⟩ <;> rw [e]
  · exact h.push hp hq
  · exact h.close hp hq
  · exact h

/-! ## Configuration and the start of a run -/

/-- In IDLE any configuration whose reserved bits of CTRL are 0 keeps the invariant: nothing is started, and the datapath is
at reset whatever the mode (R25, R27). -/
theorem Inv.configure {s : State} (h : Inv s) (hp : s.phase = .idle) {ctrl : Half}
    (hc : ctrl &&& 0xC0C0#16 = 0#16) (rate : Word) (n1 n0 zmin zmax omin omax tlong tshort tmargin : Half) :
    Inv { s with
      ctrl := ctrl, rate := rate, n1 := n1, n0 := n0, zmin := zmin, zmax := zmax, omin := omin, omax := omax,
      tlong := tlong, tshort := tshort, tmargin := tmargin } where
  channel := { h.channel with }
  block :=
    { h.block with
      ctrlReserved := hc
      started := by simp [hp]
      runOwned := fun _ => h.block.runOwned (.inl hp)
      spanOwned := fun _ => h.block.spanOwned (.inl hp)
      tpdOwned := fun _ => h.block.tpdOwned (.inl hp) }

/-- CFG.WRITE keeps the invariant (R221). -/
theorem Inv.writeReg {s : State} (h : Inv s) (hp : s.phase = .idle) (r : Reg) (d : Half) : Inv (writeReg r d s) := by
  obtain ⟨_, _, _, _, _, _, _, _, _, _, _, e, hc⟩ := writeReg_spec r d s
  rw [e]
  exact h.configure hp (hc h.block.ctrlReserved) ..

/-- CFG.DERIVE keeps the invariant (R222). -/
theorem Inv.deriveState {s t : State} (h : Inv s) (hp : s.phase = .idle) {f : Fmt} (hd : deriveState f s = some t) :
    Inv t := by
  rcases deriveState_spec hd with ⟨p, rfl⟩ | ⟨w, rfl⟩
  · exact h.configure hp h.block.ctrlReserved ..
  · exact h.configure hp h.block.ctrlReserved ..

/-- CTL.START begins a run from IDLE once its checks pass (R223). -/
theorem Inv.start {s : State} (h : Inv s) (hp : s.phase = .idle) (hs : startFault s = none) :
    Inv { s with phase := .running } where
  channel :=
    { h.channel with
      faultedEmpty := by simp
      doneClosed := by simp
      closedPhase := fun hc => by simpa [hp] using h.channel.closedPhase hc
      restingEmpty := by simp }
  block := h.block.advance (by simp [hp]) hs (by simp)

/-! ## The demodulators -/

/-- What a running block with an empty OUTQ emits in one step fits OUTQ (R201, R205). -/
theorem ChannelInv.emit {s : State} (h : ChannelInv s) (hp : s.phase = .running) (hq : s.outq = []) {bs : List BitCode}
    (hl : bs.length ≤ 11) : ChannelInv { s with outq := s.outq ++ bs } :=
  { h with
    faultedEmpty := by simp [hp]
    restingEmpty := by simp [hp]
    outqBound := by simpa [hq] using hl }

/-- A duration-count step moves RUN, which is DCD's, and emits at most one bit (R122). -/
theorem Inv.dcdStep {s : State} (h : Inv s) (hp : s.phase = .running) (hq : s.outq = []) (hm : ctrlMode s = 1)
    (l : Level) : Inv (dcdStep l s) := by
  obtain ⟨r, bs, e, hl, -⟩ := dcdStep_spec l s
  rw [e]
  exact
    { channel := { h.channel.emit hp hq (bs := bs) (by omega) with }
      block := { h.block with runOwned := fun ho => absurd hm (ho.resolve_left (by simp [hp])) } }

/-- A half-cycle step moves SPAN, HPH and PEND, which are HCD's, and emits at most two bits (R141, R153). -/
theorem Inv.hcdStep {s : State} (h : Inv s) (hp : s.phase = .running) (hq : s.outq = []) (hm : ctrlMode s = 2)
    (l : Level) : Inv (hcdStep l s) := by
  obtain ⟨n, hph, p, bs, e, hl, hc, -⟩ := hcdStep_spec l s
  rw [e]
  exact
    { channel := { h.channel.emit hp hq (bs := bs) (by omega) with }
      block :=
        { h.block with
          spanCounts := hc h.block.spanCounts
          spanOwned := fun ho => absurd hm (ho.resolve_left (by simp [hp])) } }

/-- A byte of the header faults or advances HIDX; a later one moves the T77 state, which is TPD's, and emits at most eleven
bits (R172, R175). -/
theorem Inv.tpdByte {s : State} (h : Inv s) (hp : s.phase = .running) (hq : s.outq = []) (hm : ctrlMode s = 3)
    (b : Byte) : Inv (tpdByte b s) := by
  rcases tpdByte_spec b s with ⟨c, -, e⟩ | ⟨hi, e⟩ | ⟨v, hb, win, bs, hi, e, hl, -, hw⟩ <;> rw [e]
  · exact h.raiseFault c _
  · exact
      { channel := { h.channel with }
        block :=
          { h.block with
            hidxBound := hi
            headerFirst := fun _ => h.block.headerFirst hi
            tpdOwned := fun ho => absurd hm (ho.resolve_left (by simp [hp])) } }
  · exact
      { channel := { h.channel.emit hp hq hl with }
        block :=
          { h.block with
            windowBound := hw h.block.windowBound
            headerFirst := fun hlt => absurd hlt (not_lt.2 hi)
            tpdOwned := fun ho => absurd hm (ho.resolve_left (by simp [hp])) } }

/-! ## The end of a run -/

/-- A running block may drain, whatever its datapath holds (R225). -/
theorem Inv.drain {s : State} (h : Inv s) (hp : s.phase = .running) : Inv { s with phase := .draining } where
  channel :=
    { h.channel with
      faultedEmpty := by simp
      doneClosed := by simp
      closedPhase := fun hc => by simpa [hp] using h.channel.closedPhase hc
      restingEmpty := by simp }
  block := h.block.advance (by simp [hp]) (h.block.started (.inl hp)) (by simp)

/-- End of input in DCD mode discards the open run (R126). -/
theorem Inv.eofDcd {s : State} (h : Inv s) (hp : s.phase = .running) :
    Inv { s with run := 0, phase := .draining } where
  channel := { (h.drain hp).channel with }
  block := { (h.drain hp).block with runOwned := fun _ => rfl }

/-- End of input in HCD mode discards the open span and the pending half (R147). -/
theorem Inv.eofHcd {s : State} (h : Inv s) (hp : s.phase = .running) :
    Inv { s with span := 0, hph := .waitLow, pend := .idle, phase := .draining } where
  channel := { (h.drain hp).channel with }
  block :=
    { (h.drain hp).block with
      spanCounts := by simp
      spanOwned := fun _ => ⟨rfl, rfl, rfl⟩ }

/-- End of input in TPD mode discards the window and the half value, and keeps HIDX, which is TPD's (R180). -/
theorem Inv.eofTpd {s : State} (h : Inv s) (hp : s.phase = .running) (hm : ctrlMode s = 3) :
    Inv { s with w := [], hbValid := false, hb := 0, phase := .draining } where
  channel := { (h.drain hp).channel with }
  block :=
    { (h.drain hp).block with
      windowBound := by simp
      headerFirst := fun _ => ⟨rfl, rfl⟩
      tpdOwned := fun ho => absurd hm (ho.resolve_left (by simp)) }

/-! ## Every step -/

/-- Every effect of a command keeps the invariant. -/
theorem Inv.effect {i : Instr} {s t : State} (h : Inv s) (he : Effect i s t) : Inv t := by
  cases he with
  | none => exact h
  | fault c info => exact h.raiseFault c info
  | faultAnswered c info => exact (h.raiseFault c info).of_sameBlock (respond_sameBlock _ _)
  | answer r => exact h.of_sameBlock (respond_sameBlock r s)
  | take => exact (h.of_sameBlock (respond_sameBlock _ s)).take
  | inputWait => exact h.of_sameBlock (wait_sameBlock i s)
  | getWait => exact h.of_sameBlock (wait_sameBlock i s)
  | write reg d r hi hr hp => exact h.writeReg hp r d
  | derive f g t hi hp hd => exact h.deriveState hp hd
  | start hi hp hs => exact h.start hp hs
  | dcd d l hi hp hq hm => exact h.dcdStep hp hq hm l
  | hcd d l hi hp hq hm => exact h.hcdStep hp hq hm l
  | tpd b hi hp hq hm => exact h.tpdByte hp hq hm b
  | eofDcd hi hp => exact h.eofDcd hp
  | eofHcd hi hp => exact h.eofHcd hp
  | eofTpd hi hp hm => exact h.eofTpd hp hm
  | reset => exact resetHasTheInvariant.of_sameBlock (resetState_sameBlock s)

/-- Settles O53: spending a turn and taking a word change no block state; what is then done is the producer's step, an
illegal word or a command's effect, and each keeps the invariant. -/
theorem stepKeepsTheBlockInvariant : Obligations.StepKeepsTheBlockInvariant := by
  intro s t h hstep
  have hturn : Inv { s with sched := s.sched.tail } := h.of_sameBlock rfl
  rcases step_cases hstep with ⟨-, rfl⟩ | ⟨-, rfl⟩ | ⟨p, w, ws, -, -, -, rfl⟩ | ⟨p, w, ws, i, -, -, -, he⟩
  · exact hturn.producerStep
  · exact hturn
  · exact (h.of_sameBlock (taken_sameBlock s p ws)).illegalWord w
  · exact (h.of_sameBlock (taken_sameBlock s p ws)).effect (exec_effect he)

end Sys2Proof.Machine
end

section
/-! PROOFS. The life cycle (R22): which command, word or producer's step changes the phase, and to what. -/

namespace Sys2Proof.Machine

/-- A register write leaves the phase (R221). -/
@[simp] theorem writeReg_phase (r : Reg) (d : Half) (s : State) : (writeReg r d s).phase = s.phase := by
  cases r <;> rfl

/-- A derivation leaves the phase (R222). -/
theorem deriveState_phase {f : Fmt} {s t : State} (h : deriveState f s = some t) : t.phase = s.phase := by
  rcases deriveState_spec h with ⟨p, rfl⟩ | ⟨w, rfl⟩ <;> rfl

/-- A duration-count step leaves the phase (R122). -/
@[simp] theorem dcdStep_phase (l : Level) (s : State) : (dcdStep l s).phase = s.phase := by
  obtain ⟨r, bs, e, -⟩ := dcdStep_spec l s
  rw [e]

/-- A half-cycle step leaves the phase (R141). -/
@[simp] theorem hcdStep_phase (l : Level) (s : State) : (hcdStep l s).phase = s.phase := by
  obtain ⟨n, h, p, bs, e, -⟩ := hcdStep_spec l s
  rw [e]

/-- A T77 byte leaves the phase, or faults (R172). -/
theorem tpdByte_phase (b : Byte) (s : State) : (tpdByte b s).phase = s.phase ∨ (tpdByte b s).phase = .faulted := by
  rcases tpdByte_spec b s with ⟨c, -, e⟩ | ⟨-, e⟩ | ⟨v, hb, win, bs, -, e, -⟩ <;> rw [e]
  · exact .inr (raiseFault_phase c _ s)
  · exact .inl rfl
  · exact .inl rfl

/-- The phase changes a command can make (R22). -/
inductive PhaseChange (i : Instr) (p : Phase) : Phase → Prop where
  /-- The phase stays. -/
  | stay : PhaseChange i p p
  /-- A fault, from any phase. -/
  | fault : PhaseChange i p .faulted
  /-- CTL.START, from IDLE. -/
  | start (hi : i = .ctlStart) (hp : p = .idle) : PhaseChange i p .running
  /-- SRC.EOF, from RUNNING. -/
  | eof (hi : i = .srcEof) (hp : p = .running) : PhaseChange i p .draining
  /-- CTL.RESET, from any phase. -/
  | reset (hi : i = .ctlReset) : PhaseChange i p .idle

/-- The phase stays where the states agree on it. -/
theorem PhaseChange.of_eq {i : Instr} {p q : Phase} (h : q = p) : PhaseChange i p q := h ▸ .stay

/-- Every effect of a command changes the phase as the life cycle lists. -/
theorem Effect.phaseChange {i : Instr} {s t : State} (h : Effect i s t) : PhaseChange i s.phase t.phase := by
  cases h with
  | none => exact .stay
  | fault c info => rw [raiseFault_phase]; exact .fault
  | faultAnswered c info => rw [(respond_fields _ _).1, raiseFault_phase]; exact .fault
  | answer r => exact .stay
  | take => exact .stay
  | inputWait => exact .of_eq (wait_fields i s).1
  | getWait => exact .of_eq (wait_fields i s).1
  | write reg d r => exact .of_eq (writeReg_phase r d s)
  | derive f g t hi hp hd => exact .of_eq (deriveState_phase hd)
  | start hi hp => exact .start hi hp
  | dcd d l => exact .of_eq (dcdStep_phase l s)
  | hcd d l => exact .of_eq (hcdStep_phase l s)
  | tpd b =>
    rcases tpdByte_phase b s with e | e
    · exact .of_eq e
    · rw [e]; exact .fault
  | eofDcd hi hp => exact .eof hi hp
  | eofHcd hi hp => exact .eof hi hp
  | eofTpd hi hp => exact .eof hi hp
  | reset hi => exact .reset hi

/-- The producer leaves the phase, or closes (R203, R204). -/
theorem producerStep_phase (s : State) :
    (producerStep s).phase = s.phase ∨ (closeEnabled s = true ∧ (producerStep s).phase = .done) := by
  rcases producerStep_cases s with ⟨b, rest, -, -, -, e⟩ | ⟨hp, hq, e⟩ | ⟨-, -, e⟩ <;> rw [e]
  · exact .inl rfl
  · exact .inr ⟨(closeEnabled_iff s).2 ⟨hp, hq⟩, rfl⟩
  · exact .inl rfl

/-- An illegal word faults (R261). -/
theorem illegalWord_phase (w : Word) (s : State) : (illegalWord w s).phase = .faulted := by
  rcases illegalWord_cases w s with ⟨-, e⟩ | ⟨-, e⟩ <;> simp [e]

/-- Settles O58: only the producer's CLOSE, an illegal word or a command changes the phase, and a command does so as
`PhaseChange` lists. -/
theorem phaseChangesOnlyAsListed : Obligations.PhaseChangesOnlyAsListed := by
  intro s t hstep hne
  rcases step_cases hstep with ⟨hw, rfl⟩ | ⟨-, rfl⟩ | ⟨p, w, ws, -, -, -, rfl⟩ | ⟨p, w, ws, i, hc, -, -, he⟩
  · rcases producerStep_phase { s with sched := s.sched.tail } with e | ⟨hclose, e⟩
    · exact absurd e hne
    · rw [e]
      exact ⟨by simp, by simp, fun _ => ⟨hclose, hw⟩, by simp⟩
  · exact absurd rfl hne
  · rw [illegalWord_phase]
    simp
  · have hp : (taken s p ws).phase = s.phase := by simp [taken]
    have hchange := (exec_effect he).phaseChange
    rw [hp] at hchange
    generalize t.phase = q at hchange hne
    cases hchange with
    | stay => exact absurd rfl hne
    | fault => simp
    | start hi hp => exact ⟨fun _ => ⟨hp, by rw [hc, hi]⟩, by simp, by simp, by simp⟩
    | eof hi hp => exact ⟨by simp, fun _ => ⟨hp, by rw [hc, hi]⟩, by simp, by simp⟩
    | reset hi => exact ⟨by simp, by simp, by simp, fun _ => by rw [hc, hi]⟩

end Sys2Proof.Machine
end

section
/-! PROOFS. The computed registers STATUS, TPD_POS, Q_THLO and Q_THHI field by field. A packed register is
read as a number, so that each of its fields is linear arithmetic. -/

namespace Sys2Proof.Machine

/-! ## Fields of a register as numbers -/

/-- A field of a register as a number. -/
theorem half_field_toNat (v : Half) (k n : Nat) : (v.extractLsb' k n).toNat = v.toNat / 2 ^ k % 2 ^ n := by
  rw [BitVec.extractLsb'_toNat, Nat.shiftRight_eq_div_pow]

/-- A field's value as a statement about the register's number. -/
theorem half_field_eq_iff (v : Half) (k n : Nat) (x : BitVec n) :
    v.extractLsb' k n = x ↔ v.toNat / 2 ^ k % 2 ^ n = x.toNat := by
  rw [← BitVec.toNat_inj, half_field_toNat]

/-- A flag's value as a statement about the register's number. -/
theorem half_bit_eq_iff (v : Half) (k : Nat) (b : Bool) :
    v.getLsbD k = b ↔ v.toNat / 2 ^ k % 2 = b.toNat := by
  rw [← BitVec.testBit_toNat, Nat.testBit_eq_decide_div_mod_eq]
  cases b <;> simp

/-! ## STATUS -/

/-- STATUS as a number: its fields at their places (R28). -/
theorem statusWord_toNat (s : State) :
    (statusWord s).toNat =
      (phaseCode s.phase).toNat + 8 * s.slotFull.toNat + 16 * (bitCode s.slotVal).toNat + 64 * s.closed.toNat +
        128 * (s.pend == .pendingOne).toNat + 256 * (s.hph == .counting).toNat + 512 * (s.outq.length % 16) := by
  have h : (statusWord s).toNat =
      (0#3 ++ BitVec.ofNat 4 s.outq.length ++ BitVec.ofBool (s.hph == .counting) ++
        BitVec.ofBool (s.pend == .pendingOne) ++ BitVec.ofBool s.closed ++ bitCode s.slotVal ++
        BitVec.ofBool s.slotFull ++ phaseCode s.phase).toNat := rfl
  rw [h]
  simp only [toNat_cat, BitVec.toNat_ofNat, BitVec.toNat_ofBool]
  omega

/-- The fields of STATUS, from the least significant (R28). -/
theorem statusWord_fields (s : State) :
    (statusWord s).extractLsb' 0 3 = phaseCode s.phase ∧
    (statusWord s).getLsbD 3 = s.slotFull ∧
    (statusWord s).extractLsb' 4 2 = bitCode s.slotVal ∧
    (statusWord s).getLsbD 6 = s.closed ∧
    (statusWord s).getLsbD 7 = (s.pend == .pendingOne) ∧
    (statusWord s).getLsbD 8 = (s.hph == .counting) ∧
    (statusWord s).extractLsb' 9 4 = BitVec.ofNat 4 s.outq.length ∧
    (statusWord s).extractLsb' 13 3 = 0#3 := by
  have hphase := (phaseCode s.phase).isLt
  have hslot := (bitCode s.slotVal).isLt
  have hfull := s.slotFull.toNat_lt
  have hclosed := s.closed.toNat_lt
  have hpend := (s.pend == .pendingOne).toNat_lt
  have hhph := (s.hph == .counting).toNat_lt
  simp only [half_field_eq_iff, half_bit_eq_iff, statusWord_toNat, BitVec.toNat_ofNat]
  omega

/-- Settles O15: each field of STATUS is its flag or code, an empty slot's code is 0, and the length of OUTQ fits its four
bits (R201). -/
theorem statusShowsItsFields : Obligations.StatusShowsItsFields := by
  refine ⟨rfl, rfl, fun s h => ?_⟩
  obtain ⟨hphase, hfull, hslot, hclosed, hpend, hhph, hlen, hzero⟩ := statusWord_fields s
  refine ⟨⟨_, rfl, respond_sameBlock _ s⟩, ?_, hfull, ?_, hclosed, ?_, ?_, ?_, hzero⟩
  · refine hphase.trans ?_
    cases s.phase <;> rfl
  · refine hslot.trans ?_
    cases hf : s.slotFull with
    | true => cases s.slotVal <;> rfl
    | false => rw [h.slotEmpty hf]; rfl
  · exact hpend.trans (beq_eq_decide _ _)
  · exact hhph.trans (beq_eq_decide _ _)
  · have hle := h.outqBound
    change ((statusWord s).extractLsb' 9 4).toNat = s.outq.length
    rw [hlen, BitVec.toNat_ofNat]
    omega

/-! ## TPD_POS -/

/-- TPD_POS as a number: its fields at their places (R40). -/
theorem tpdPosWord_toNat (s : State) :
    (tpdPosWord s).toNat = s.w.length % 32 + 256 * (s.hidx % 32) + 32768 * s.hbValid.toNat := by
  have h : (tpdPosWord s).toNat =
      (BitVec.ofBool s.hbValid ++ 0#2 ++ BitVec.ofNat 5 s.hidx ++ 0#3 ++ BitVec.ofNat 5 s.w.length).toNat := rfl
  rw [h]
  simp only [toNat_cat, BitVec.toNat_ofNat, BitVec.toNat_ofBool]
  omega

/-- Settles O16: with TPD_POS as a number each field is its quotient, and HIDX and the window's length fit their five bits
(R40, R175). -/
theorem tpdPosShowsItsFields : Obligations.TpdPosShowsItsFields := by
  intro s h
  change (tpdPosWord s).getLsbD 15 = s.hbValid ∧ (tpdPosWord s).extractLsb' 13 2 = 0#2 ∧
    ((tpdPosWord s).extractLsb' 8 5).toNat = s.hidx ∧ (tpdPosWord s).extractLsb' 5 3 = 0#3 ∧
    ((tpdPosWord s).extractLsb' 0 5).toNat = s.w.length
  have hhidx := h.hidxBound
  have hwindow := h.windowBound
  have hvalid := s.hbValid.toNat_lt
  simp only [half_bit_eq_iff, half_field_eq_iff, half_field_toNat, tpdPosWord_toNat, BitVec.toNat_ofNat]
  omega

/-! ## Q_THLO and Q_THHI -/

/-- There are no thresholds at an illegal depth (R101). -/
theorem thresholds_eq_none {depth : Nat} (h8 : depth ≠ 8) (h16 : depth ≠ 16) : thresholds depth = none := by
  simp only [thresholds, if_neg h8, if_neg h16]

/-- Both registers hold the thresholds of the current depth in two's complement (R35). -/
theorem thresholdWords_eq {s : State} {lo hi : Int} (h : thresholds (ctrlDepth s) = some (lo, hi)) :
    readReg .qThlo s = BitVec.ofInt 16 lo ∧ readReg .qThhi s = BitVec.ofInt 16 hi := by
  simp only [readReg, thloWord, thhiWord, h, and_self]

/-- Both registers read 0 at an illegal depth (R35). -/
theorem thresholdWords_eq_zero {s : State} (h : thresholds (ctrlDepth s) = none) :
    readReg .qThlo s = 0#16 ∧ readReg .qThhi s = 0#16 := by
  simp [readReg, thloWord, thhiWord, h]

/-- The thresholds of R101 fit 16-bit two's complement. -/
theorem thresholds_toInt {depth : Nat} {lo hi : Int} (h : thresholds depth = some (lo, hi)) :
    (BitVec.ofInt 16 lo).toInt = lo ∧ (BitVec.ofInt 16 hi).toInt = hi := by
  by_cases h8 : depth = 8
  · rw [h8, thresholds_8] at h
    cases h
    decide
  · by_cases h16 : depth = 16
    · rw [h16, thresholds_16] at h
      cases h
      decide
    · rw [thresholds_eq_none h8 h16] at h
      cases h

/-- Settles O17: the registers hold the thresholds of R101, which are known at depths 8 and 16 and absent elsewhere. -/
theorem thresholdRegistersFollowDepth : Obligations.ThresholdRegistersFollowDepth := by
  refine ⟨rfl, rfl, rfl, rfl, fun s => ⟨fun lo hi h => ?_, fun h8 => ?_, fun h16 => ?_, fun h8 h16 => ?_⟩⟩
  · obtain ⟨elo, ehi⟩ := thresholdWords_eq h
    rw [elo, ehi]
    exact thresholds_toInt h
  · exact thresholdWords_eq (h8 ▸ thresholds_8)
  · exact thresholdWords_eq (h16 ▸ thresholds_16)
  · exact thresholdWords_eq_zero (thresholds_eq_none h8 h16)

/-- Settles O28: STATUS and TPD_POS by evaluation, and Q_THLO and Q_THHI because depth 0 is illegal (R52). -/
theorem resetStateReadsZero : Obligations.ResetStateReadsZero := by
  have hdepth : thresholds (ctrlDepth State.reset) = none := thresholds_eq_none (by decide) (by decide)
  exact ⟨rfl, rfl, thresholdWords_eq_zero hdepth⟩

end Sys2Proof.Machine
end

section
/-! PROOFS. The turns that execute no command: the producer's, listed or not, and that of an agent that has issued nothing. -/

namespace Sys2Proof.Machine

/-- With no turn listed the producer acts, and no turn is spent (R321, log entry 2). -/
theorem takeTurn_of_sched_nil {s : State} (h : s.sched = []) : takeTurn s = (.producer, s) := by
  simp only [takeTurn, h]

/-- A port whose agent has issued nothing has no word to take (R15). -/
theorem takeWord_of_portQueue_nil {s : State} {p : Port} (h : portQueue p s = []) : takeWord p s = none := by
  simp only [takeWord, h]

/-- Settles O7: the head of the schedule says whose turn it is, the producer's where none is listed, and a port without
words has no step. -/
theorem stepGivesTheProducerItsTurn : Obligations.StepGivesTheProducerItsTurn := by
  refine ⟨fun s turns hs => ?_, fun s hs => ?_, fun s p turns hs hq => ?_⟩
  · simp only [step, takeTurn_of_sched_cons hs]
  · simp only [step, takeTurn_of_sched_nil hs]
  · have hq' : portQueue p { s with sched := turns } = [] := by rw [portQueue_with_sched, hq]
    rw [step_of_external_turn hs, portStep, takeWord_of_portQueue_nil hq']

end Sys2Proof.Machine
end

section
/-! PROOFS. The configuration registers (R26, R74): which command changes one, and that nothing else does. -/

namespace Sys2Proof.Machine

/-- A state has its own configuration. -/
theorem sameConfig_refl (s : State) : sameConfig s s :=
  ⟨rfl, rfl, rfl, rfl, rfl, rfl, rfl, rfl, rfl, rfl, rfl⟩

/-- Configurations agree transitively. -/
theorem sameConfig_trans {s t u : State} (hst : sameConfig s t) (htu : sameConfig t u) : sameConfig s u := by
  simp_all [sameConfig]

/-- The configuration is block state. -/
theorem sameConfig_of_sameBlock {s t : State} (h : sameBlock s t) : sameConfig s t := by
  rw [h]
  exact sameConfig_refl s

/-- Taking a word from a port leaves the configuration. -/
theorem taken_sameConfig (s : State) (p : Port) (ws : List Word) : sameConfig s (taken s p ws) :=
  sameConfig_of_sameBlock (taken_sameBlock s p ws)

/-- The fault primitive leaves the configuration (R262). -/
theorem raiseFault_sameConfig (c : FaultCode) (info : Half) (s : State) : sameConfig s (raiseFault c info s) := by
  simp [sameConfig]

/-- An illegal word leaves the configuration (R261). -/
theorem illegalWord_sameConfig (w : Word) (s : State) : sameConfig s (illegalWord w s) := by
  rcases illegalWord_cases w s with ⟨-, e⟩ | ⟨-, e⟩ <;> rw [e] <;> exact raiseFault_sameConfig _ _ s

/-- The producer leaves the configuration (R203, R204). -/
theorem producerStep_sameConfig (s : State) : sameConfig s (producerStep s) := by
  rcases producerStep_cases s with ⟨b, rest, -, -, -, e⟩ | ⟨-, -, e⟩ | ⟨-, -, e⟩ <;> rw [e] <;> exact sameConfig_refl s

/-- A duration-count step leaves the configuration (R122). -/
theorem dcdStep_sameConfig (l : Level) (s : State) : sameConfig s (dcdStep l s) := by
  obtain ⟨r, bs, e, -⟩ := dcdStep_spec l s
  rw [e]
  exact sameConfig_refl s

/-- A half-cycle step leaves the configuration (R141). -/
theorem hcdStep_sameConfig (l : Level) (s : State) : sameConfig s (hcdStep l s) := by
  obtain ⟨n, h, p, bs, e, -⟩ := hcdStep_spec l s
  rw [e]
  exact sameConfig_refl s

/-- A T77 byte leaves the configuration (R172). -/
theorem tpdByte_sameConfig (b : Byte) (s : State) : sameConfig s (tpdByte b s) := by
  rcases tpdByte_spec b s with ⟨c, -, e⟩ | ⟨-, e⟩ | ⟨v, hb, win, bs, -, e, -⟩ <;> rw [e]
  · exact raiseFault_sameConfig c _ s
  · exact sameConfig_refl s
  · exact sameConfig_refl s

/-- The commands that may change a configuration register, and the phase they need for it (R221, R222, R227). -/
def Configures (p : Phase) (i : Instr) : Prop :=
  i = .ctlReset ∨ (p = .idle ∧ ((∃ reg d, i = .cfgWrite reg d) ∨ ∃ f, i = .cfgDerive f))

/-- Every effect of a command leaves the configuration, unless the command is one that may change it. -/
theorem Effect.sameConfig_or_configures {i : Instr} {s t : State} (h : Effect i s t) :
    sameConfig s t ∨ Configures s.phase i := by
  cases h with
  | write reg d r hi hr hp => exact .inr (.inr ⟨hp, .inl ⟨reg, d, hi⟩⟩)
  | derive f g t hi hp => exact .inr (.inr ⟨hp, .inr ⟨f, hi⟩⟩)
  | reset hi => exact .inr (.inl hi)
  | fault c info => exact .inl (raiseFault_sameConfig c info s)
  | faultAnswered c info => exact .inl (raiseFault_sameConfig c info s)
  | inputWait => exact .inl (sameConfig_of_sameBlock (wait_sameBlock i s))
  | getWait => exact .inl (sameConfig_of_sameBlock (wait_sameBlock i s))
  | dcd d l => exact .inl (dcdStep_sameConfig l s)
  | hcd d l => exact .inl (hcdStep_sameConfig l s)
  | tpd b => exact .inl (tpdByte_sameConfig b s)
  | none | answer | take | start | eofDcd | eofHcd | eofTpd => exact .inl (sameConfig_refl s)

/-- A step leaves the configuration, unless it executes a command that may change it. -/
theorem step_sameConfig_or_configures {s t : State} (h : step s = .next t) :
    sameConfig s t ∨ ∃ i, nextCommand s = some i ∧ Configures s.phase i := by
  rcases step_cases h with ⟨-, rfl⟩ | ⟨-, rfl⟩ | ⟨p, w, ws, -, -, -, rfl⟩ | ⟨p, w, ws, i, hc, -, -, he⟩
  · exact .inl (producerStep_sameConfig { s with sched := s.sched.tail })
  · exact .inl (sameConfig_refl s)
  · exact .inl (sameConfig_trans (taken_sameConfig s p ws) (illegalWord_sameConfig w _))
  · have hp : (taken s p ws).phase = s.phase := by simp [taken]
    rcases (exec_effect he).sameConfig_or_configures with hsame | hconf
    · exact .inl (sameConfig_trans (taken_sameConfig s p ws) hsame)
    · exact .inr ⟨i, hc, hp ▸ hconf⟩

/-- Settles O57: a step that changes the configuration executes CTL.RESET, or CFG.WRITE or CFG.DERIVE in IDLE. -/
theorem configurationIsFrozenDuringARun : Obligations.ConfigurationIsFrozenDuringARun := by
  intro s t h hreset
  rcases step_sameConfig_or_configures h with hsame | ⟨i, hc, rfl | ⟨hp, hi⟩⟩
  · exact ⟨fun _ => hsame, fun _ _ => hsame⟩
  · exact absurd hc hreset
  · refine ⟨fun hne => absurd hp hne, fun hwrite hderive => ?_⟩
    rcases hi with ⟨reg, d, rfl⟩ | ⟨f, rfl⟩
    · exact absurd hc (hwrite reg d)
    · exact absurd hc (hderive f)

end Sys2Proof.Machine
end

section
/-! PROOFS. What a source command emits (R71). A state is split into its phase, configuration and datapath, which every source command
reads, and the rest, of which it reads OUTQ only, for back-pressure, and to whose OUTQ it appends. -/

namespace Sys2Proof.Machine

/-! ## A state seen past its channel -/

/-- The phase, configuration and datapath of `s` with all else of `c`: the fault record, the channel, and what is not the
block's. -/
def State.withChannel (s c : State) : State :=
  { s with
    fcode := c.fcode, finfo := c.finfo, outq := c.outq, slotFull := c.slotFull, slotVal := c.slotVal,
    closed := c.closed, hostQ := c.hostQ, sourceQ := c.sourceQ, consumerQ := c.consumerQ, sched := c.sched,
    port := c.port, responses := c.responses }

/-- A state with the phase, configuration and datapath of `s` is `s` with a channel of its own. -/
theorem eq_withChannel {s c : State} (hp : s.phase = c.phase) (hc : sameConfig s c) (hd : sameDatapath s c) :
    c = s.withChannel c := by
  obtain ⟨ctrl, rate, n1, n0, zmin, zmax, omin, omax, tlong, tshort, tmargin⟩ := hc
  obtain ⟨run, span, hph, pend, hidx, hbValid, hb, w⟩ := hd
  rw [State.withChannel, hp, ← ctrl, ← rate, ← n1, ← n0, ← zmin, ← zmax, ← omin, ← omax, ← tlong, ← tshort, ← tmargin,
    ← run, ← span, ← hph, ← pend, ← hidx, ← hbValid, ← hb, ← w]

/-- A state has its own datapath. -/
theorem sameDatapath_refl (s : State) : sameDatapath s s :=
  ⟨rfl, rfl, rfl, rfl, rfl, rfl, rfl, rfl⟩

/-- `f` takes `s`, whatever its channel, to one and the same phase, configuration and datapath, and emits the same bits. -/
def Emits (f : State → State) (s : State) : Prop :=
  ∃ (t : State) (bs : List BitCode), ∀ c, f (s.withChannel c) = t.withChannel (emitAll bs c)

/-- Nothing emitted leaves OUTQ as it is. -/
theorem emitAll_nil (s : State) : emitAll [] s = s := by
  rw [emitAll, List.append_nil]

/-- A function that leaves the channel alone emits nothing. -/
theorem emits_nothing {f : State → State} {s : State} (t : State) (h : ∀ c, f (s.withChannel c) = t.withChannel c) :
    Emits f s :=
  ⟨t, [], fun c => by rw [emitAll_nil, h]⟩

/-- Functions that agree on `s`, whatever its channel, emit alike. -/
theorem Emits.congr {f g : State → State} {s : State} (hg : Emits g s)
    (h : ∀ c, f (s.withChannel c) = g (s.withChannel c)) : Emits f s := by
  obtain ⟨t, bs, hg⟩ := hg
  exact ⟨t, bs, fun c => (h c).trans (hg c)⟩

/-! ## The demodulators -/

/-- A duration-count step emits by RUN and the thresholds (R122). -/
theorem dcdStep_emits (l : Level) (s : State) : Emits (dcdStep l) s := by
  cases l with
  | high => exact emits_nothing { s with run := countUp s.run } fun _ => rfl
  | low | mid =>
    by_cases h0 : s.run = 0
    · exact emits_nothing s fun _ => if_pos h0
    · exact ⟨{ s with run := 0 }, (dcdClassify s.n1 s.n0 s.run.toNat).toList, fun _ => if_neg h0⟩

/-- A span in the Zero window emits by PEND (R144). -/
theorem zeroBranch_emits (s : State) : Emits zeroBranch s := by
  rcases pend_cases s with hp | hp
  · exact ⟨{ s with pend := .idle }, [.zero], fun c => by simp [zeroBranch, State.withChannel, emit, emitAll, hp]⟩
  · exact ⟨{ s with pend := .idle }, [.error, .zero],
      fun c => by simp [zeroBranch, State.withChannel, emit, emitAll, hp]⟩

/-- A span in the One window emits by PEND (R145). -/
theorem oneBranch_emits (s : State) : Emits oneBranch s := by
  rcases pend_cases s with hp | hp
  · exact emits_nothing { s with pend := .pendingOne } fun c => by simp [oneBranch, State.withChannel, hp]
  · exact ⟨{ s with pend := .idle }, [.one], fun c => by simp [oneBranch, State.withChannel, emit, emitAll, hp]⟩

/-- A span in neither window emits nothing (R146). -/
theorem noiseBranch_emits (s : State) : Emits noiseBranch s := by
  by_cases hn : ctrlNcp s = true
  · exact emits_nothing { s with pend := .idle } fun _ => if_pos hn
  · exact emits_nothing s fun _ => if_neg hn

/-- A finished span emits by the windows and PEND (R142). -/
theorem hcdClassify_emits (n : Nat) (s : State) : Emits (hcdClassify n) s := by
  by_cases hz : inZero s n = true
  · exact (zeroBranch_emits s).congr fun _ => if_pos hz
  · by_cases ho : inOne s n = true
    · exact (oneBranch_emits s).congr fun _ => (if_neg hz).trans (if_pos ho)
    · exact (noiseBranch_emits s).congr fun _ => (if_neg hz).trans (if_neg ho)

/-- A half-cycle step emits by HPH, SPAN, PEND and the windows (R141). -/
theorem hcdStep_emits (l : Level) (s : State) : Emits (hcdStep l) s := by
  rcases hph_cases s with hh | hh
  · by_cases hl : l = .low
    · subst hl
      exact emits_nothing { s with hph := .counting, span := 1 } fun c => hcdStep_start (s.withChannel c) hh
    · exact emits_nothing s fun c => hcdStep_waiting l (s.withChannel c) hh hl
  · by_cases hl : l = .high
    · subst hl
      obtain ⟨t, bs, he⟩ := hcdClassify_emits s.span.toNat s
      refine ⟨{ t with span := 0, hph := .waitLow }, bs, fun c => ?_⟩
      rw [hcdStep_finalize (s.withChannel c) hh]
      exact congrArg (fun u : State => { u with span := 0, hph := .waitLow }) (he c)
    · exact emits_nothing { s with span := countUp s.span } fun c => hcdStep_count l (s.withChannel c) hh hl

/-- The cells' classes are read from the configuration (R176). -/
theorem cellClasses_withChannel (s c : State) (cs : List (Half × Half)) :
    cellClasses (s.withChannel c) cs = cellClasses s cs := by
  induction cs with
  | nil => rfl
  | cons x rest ih => rw [cellClasses, cellClasses, ih]; rfl

/-- The outcome of an attempt is read from the configuration (R175). -/
theorem attemptOn_withChannel (s c : State) (win : List Half) : attemptOn (s.withChannel c) win = attemptOn s win := by
  unfold attemptOn
  rw [cellClasses_withChannel]
  rfl

/-- An attempt emits by the window and the configuration (R175). -/
theorem tpdAttempt_emits (s : State) : Emits tpdAttempt s := by
  have outcome : ∀ c, attemptOn (s.withChannel c) (s.withChannel c).w = attemptOn s s.w :=
    fun c => attemptOn_withChannel s c s.w
  cases ha : attemptOn s s.w with
  | slideHalf => exact emits_nothing { s with w := s.w.drop 1 } fun c => by simp only [tpdAttempt, outcome, ha]; rfl
  | slideFull => exact emits_nothing { s with w := s.w.drop 2 } fun c => by simp only [tpdAttempt, outcome, ha]; rfl
  | frame bits => exact ⟨{ s with w := [] }, bits, fun c => by simp only [tpdAttempt, outcome, ha]; rfl⟩

/-- A T77 value emits by the window and the configuration (R175). -/
theorem tpdValue_emits (v : Half) (s : State) : Emits (tpdValue v) s := by
  by_cases h : (s.w ++ [v]).length = 22
  · obtain ⟨t, bs, he⟩ := tpdAttempt_emits { s with w := s.w ++ [v] }
    exact ⟨t, bs, fun c => (if_pos h).trans (he c)⟩
  · exact emits_nothing { s with w := s.w ++ [v] } fun _ => if_neg h

/-- A byte of the header that is the one expected emits nothing (R172). -/
theorem tpdByte_emits_of_header {b : Byte} {s : State} (hi : s.hidx < 18) (hb : b = headerByte s.hidx) :
    Emits (tpdByte b) s :=
  emits_nothing { s with hidx := s.hidx + 1 } fun _ => (if_pos hi).trans (if_neg (not_not.2 hb))

/-- Past the header a byte emits by the T77 state and the configuration (R172). -/
theorem tpdByte_emits_of_value (b : Byte) {s : State} (hi : ¬s.hidx < 18) : Emits (tpdByte b) s := by
  by_cases hv : s.hbValid = false
  · exact emits_nothing { s with hb := b, hbValid := true } fun _ => (if_neg hi).trans (if_pos hv)
  · obtain ⟨t, bs, he⟩ := tpdValue_emits (joinValue s.hb b) { s with hbValid := false }
    exact ⟨t, bs, fun c => ((if_neg hi).trans (if_neg hv)).trans (he c)⟩

/-! ## Source commands -/

/-- Back-pressure does not hold command `i` at its port, when the block of `s` has the channel `c` (R205). -/
def Accepted (i : Instr) (s c : State) : Prop :=
  s.phase = .running → i = .srcEof ∨ c.outq = []

/-- What a command does to `s`, the same whatever the channel it is accepted with. -/
inductive Reaction (i : Instr) (s : State) : Prop where
  /-- It emits these bits and leaves this phase, configuration and datapath. -/
  | emits (t : State) (bs : List BitCode)
      (h : ∀ c, Accepted i s c → exec i (s.withChannel c) = .next (t.withChannel (emitAll bs c)))
  /-- It raises this fault. -/
  | faults (code : FaultCode) (info : Half) (hp : s.phase ≠ .faulted)
      (h : ∀ c, Accepted i s c → exec i (s.withChannel c) = .next (raiseFault code info (s.withChannel c)))
  /-- It stops the model, which no reachable state does (log entry 6). -/
  | stops (r : Fault) (h : ∀ c, Accepted i s c → exec i (s.withChannel c) = .fault r)

/-- A command that does one unit's step reacts as that step emits. -/
theorem Reaction.of_emits {i : Instr} {s : State} {f : State → State} (hf : Emits f s)
    (h : ∀ c, Accepted i s c → exec i (s.withChannel c) = .next (f (s.withChannel c))) : Reaction i s := by
  obtain ⟨t, bs, he⟩ := hf
  exact .emits t bs fun c hc => by rw [h c hc, he]

/-- A command that leaves the channel alone emits nothing. -/
theorem Reaction.silent {i : Instr} {s : State} (t : State)
    (h : ∀ c, Accepted i s c → exec i (s.withChannel c) = .next (t.withChannel c)) : Reaction i s :=
  .emits t [] fun c hc => by rw [emitAll_nil, h c hc]

/-- Accepted input passes the back-pressure test (R205). -/
theorem not_inputWaits_of_accepted {i : Instr} {s c : State} (hi : i ≠ .srcEof) (hc : Accepted i s c) :
    ¬inputWaits (s.withChannel c) = true := by
  rw [inputWaits_iff]
  exact fun ⟨hp, hq⟩ => hq ((hc hp).resolve_left hi)

/-- A sample of a running sample mode goes to the mode's demodulator (R224). -/
theorem exec_srcSample_of_level {d : Half} {s : State} {l : Level} (hw : ¬inputWaits s = true) (hp : s.phase = .running)
    (hm : ctrlMode s = 1 ∨ ctrlMode s = 2) (hl : quantize d (ctrlDepth s) = some l) :
    exec (.srcSample d) s = .next (if ctrlMode s = 1 then dcdStep l s else hcdStep l s) := by
  simp [exec, execSrcSample, hw, hp, hm, hl]

/-- A sample without a level stops the model (R103, log entry 6). -/
theorem exec_srcSample_of_no_level {d : Half} {s : State} (hw : ¬inputWaits s = true) (hp : s.phase = .running)
    (hm : ctrlMode s = 1 ∨ ctrlMode s = 2) (hl : quantize d (ctrlDepth s) = none) :
    exec (.srcSample d) s = .fault .depthInRun := by
  simp [exec, execSrcSample, hw, hp, hm, hl]

/-- SRC.SAMPLE reacts by the phase, the configuration and the datapath (R224). -/
theorem srcSample_reaction (d : Half) (s : State) : Reaction (.srcSample d) s := by
  have past : ∀ c, Accepted (.srcSample d) s c → ¬inputWaits (s.withChannel c) = true :=
    fun c => not_inputWaits_of_accepted (by simp)
  by_cases hf : s.phase = .faulted
  · exact .silent s fun c hc => (if_neg (past c hc)).trans (if_pos hf)
  · by_cases hg : s.phase ≠ .running ∨ ¬(ctrlMode s = 1 ∨ ctrlMode s = 2)
    · exact .faults _ _ hf fun c hc => ((if_neg (past c hc)).trans (if_neg hf)).trans (if_pos hg)
    · obtain ⟨hp, hm⟩ := not_or.1 hg
      rw [not_not] at hp hm
      cases hl : quantize d (ctrlDepth s) with
      | none => exact .stops _ fun c hc => exec_srcSample_of_no_level (past c hc) hp hm hl
      | some l =>
        have quantized := fun c hc => exec_srcSample_of_level (past c hc) hp hm hl
        by_cases h1 : ctrlMode s = 1
        · exact .of_emits (dcdStep_emits l s) fun c hc => (quantized c hc).trans (congrArg _ (if_pos h1))
        · exact .of_emits (hcdStep_emits l s) fun c hc => (quantized c hc).trans (congrArg _ (if_neg h1))

/-- SRC.BYTE reacts by the phase, the configuration and the datapath (R171, R172). -/
theorem srcByte_reaction (b : Byte) (s : State) : Reaction (.srcByte b) s := by
  have past : ∀ c, Accepted (.srcByte b) s c → ¬inputWaits (s.withChannel c) = true :=
    fun c => not_inputWaits_of_accepted (by simp)
  by_cases hf : s.phase = .faulted
  · exact .silent s fun c hc => (if_neg (past c hc)).trans (if_pos hf)
  · by_cases hg : s.phase ≠ .running ∨ ctrlMode s ≠ 3
    · exact .faults _ _ hf fun c hc => ((if_neg (past c hc)).trans (if_neg hf)).trans (if_pos hg)
    · have demodulated : ∀ c, Accepted (.srcByte b) s c →
          exec (.srcByte b) (s.withChannel c) = .next (tpdByte b (s.withChannel c)) :=
        fun c hc => ((if_neg (past c hc)).trans (if_neg hf)).trans (if_neg hg)
      by_cases hi : s.hidx < 18
      · by_cases hb : b ≠ headerByte s.hidx
        · exact .faults (if s.hidx = 15 then .version else .magic) (BitVec.ofNat 16 s.hidx) hf fun c hc =>
            (demodulated c hc).trans (congrArg _ ((if_pos hi).trans (if_pos hb)))
        · exact .of_emits (tpdByte_emits_of_header hi (not_not.1 hb)) demodulated
      · exact .of_emits (tpdByte_emits_of_value b hi) demodulated

/-- SRC.EOF in DCD mode drops the open run (R126). -/
theorem exec_srcEof_of_dcd {s : State} (hp : s.phase = .running) (hm : ctrlMode s = 1) :
    exec .srcEof s = .next { s with run := 0, phase := .draining } := by
  simp [exec, execSrcEof, hp, hm]

/-- SRC.EOF in HCD mode drops the open span and the pending half (R147). -/
theorem exec_srcEof_of_hcd {s : State} (hp : s.phase = .running) (hm : ctrlMode s = 2) :
    exec .srcEof s = .next { s with span := 0, hph := .waitLow, pend := .idle, phase := .draining } := by
  simp [exec, execSrcEof, hp, hm]

/-- SRC.EOF in TPD mode inside the header faults (R180). -/
theorem exec_srcEof_of_header {s : State} (hp : s.phase = .running) (hm : ctrlMode s = 3) (hi : s.hidx < 18) :
    exec .srcEof s = .next (raiseFault .magic (BitVec.ofNat 16 s.hidx) s) := by
  simp [exec, execSrcEof, hp, hm, hi]

/-- SRC.EOF in TPD mode past the header drops the window and the half value (R180). -/
theorem exec_srcEof_of_tpd {s : State} (hp : s.phase = .running) (hm : ctrlMode s = 3) (hi : ¬s.hidx < 18) :
    exec .srcEof s = .next { s with w := [], hbValid := false, hb := 0, phase := .draining } := by
  simp [exec, execSrcEof, hp, hm, hi]

/-- SRC.EOF in a run of no mode stops the model (log entry 6). -/
theorem exec_srcEof_of_no_mode {s : State} (hp : s.phase = .running) (h1 : ctrlMode s ≠ 1) (h2 : ctrlMode s ≠ 2)
    (h3 : ctrlMode s ≠ 3) : exec .srcEof s = .fault .modeInRun := by
  simp [exec, execSrcEof, hp]

/-- SRC.EOF reacts by the phase, the configuration and the datapath, and emits nothing (R225). -/
theorem srcEof_reaction (s : State) : Reaction .srcEof s := by
  by_cases hf : s.phase = .faulted
  · exact .silent s fun c _ => if_pos hf
  by_cases hr : s.phase ≠ .running
  · exact .faults _ _ hf fun c _ => (if_neg hf).trans (if_pos hr)
  have hp := not_not.1 hr
  by_cases h1 : ctrlMode s = 1
  · exact .silent { s with run := 0, phase := .draining } fun c _ => exec_srcEof_of_dcd (s := s.withChannel c) hp h1
  by_cases h2 : ctrlMode s = 2
  · exact .silent { s with span := 0, hph := .waitLow, pend := .idle, phase := .draining } fun c _ =>
      exec_srcEof_of_hcd (s := s.withChannel c) hp h2
  by_cases h3 : ctrlMode s = 3
  · by_cases hi : s.hidx < 18
    · exact .faults .magic (BitVec.ofNat 16 s.hidx) hf fun c _ =>
        exec_srcEof_of_header (s := s.withChannel c) hp h3 hi
    · exact .silent { s with w := [], hbValid := false, hb := 0, phase := .draining } fun c _ =>
        exec_srcEof_of_tpd (s := s.withChannel c) hp h3 hi
  exact .stops _ fun c _ => exec_srcEof_of_no_mode (s := s.withChannel c) hp h1 h2 h3

/-- Every source command reacts by the phase, the configuration and the datapath. -/
theorem source_reaction {i : Instr} (hi : (∃ d, i = .srcSample d) ∨ (∃ b, i = .srcByte b) ∨ i = .srcEof) (s : State) :
    Reaction i s := by
  rcases hi with ⟨d, rfl⟩ | ⟨b, rfl⟩ | rfl
  · exact srcSample_reaction d s
  · exact srcByte_reaction b s
  · exact srcEof_reaction s

/-- Two states that differ in the channel only are left by an accepted source command in states that agree on the phase, the
configuration and the datapath, both faulted or with the same bits emitted. -/
theorem Reaction.alike {i : Instr} {s c₁ c₂ t₁ t₂ : State} (h : Reaction i s) (h₁ : Accepted i s c₁)
    (h₂ : Accepted i s c₂) (e₁ : exec i (s.withChannel c₁) = .next t₁) (e₂ : exec i (s.withChannel c₂) = .next t₂) :
    t₁.phase = t₂.phase ∧ sameConfig t₁ t₂ ∧ sameDatapath t₁ t₂ ∧
    ((t₁.phase = .faulted ∧ t₁.outq = [] ∧ t₂.outq = []) ∨
      ∃ bs, t₁.outq = c₁.outq ++ bs ∧ t₂.outq = c₂.outq ++ bs) := by
  cases h with
  | emits t bs h =>
    rw [h c₁ h₁] at e₁
    rw [h c₂ h₂] at e₂
    cases e₁
    cases e₂
    exact ⟨rfl, sameConfig_refl t, sameDatapath_refl t, .inr ⟨bs, rfl, rfl⟩⟩
  | faults code info hp h =>
    rw [h c₁ h₁, raiseFault_of_not_faulted code info (s := s.withChannel c₁) hp] at e₁
    rw [h c₂ h₂, raiseFault_of_not_faulted code info (s := s.withChannel c₂) hp] at e₂
    cases e₁
    cases e₂
    exact ⟨rfl, sameConfig_refl s, sameDatapath_refl s, .inl ⟨rfl, rfl, rfl⟩⟩
  | stops r h =>
    rw [h c₁ h₁] at e₁
    cases e₁

/-! ## The consumer and the producer -/

/-- The fault primitive leaves the datapath (R262). -/
theorem raiseFault_sameDatapath (c : FaultCode) (info : Half) (s : State) : sameDatapath s (raiseFault c info s) := by
  simp [sameDatapath]

/-- The producer leaves the datapath (R203, R204). -/
theorem producerStep_sameDatapath (s : State) : sameDatapath s (producerStep s) := by
  rcases producerStep_cases s with ⟨b, rest, -, -, -, e⟩ | ⟨-, -, e⟩ | ⟨-, -, e⟩ <;> rw [e] <;>
    exact sameDatapath_refl s

/-- SNK.GET leaves the phase, the configuration, the datapath and OUTQ (R202). -/
theorem snkGet_frame {s t : State} (h : exec .snkGet s = .next t) :
    sameConfig s t ∧ sameDatapath s t ∧ t.phase = s.phase ∧ t.outq = s.outq := by
  have same : sameConfig s s ∧ sameDatapath s s ∧ s.phase = s.phase ∧ s.outq = s.outq :=
    ⟨sameConfig_refl s, sameDatapath_refl s, rfl, rfl⟩
  cases exec_effect h with
  | none | answer | take => exact same
  | getWait =>
    rw [wait_sameBlock .snkGet s]
    exact same
  | _ => simp_all

/-- CTL.ABORT leaves the configuration and the datapath (R226). -/
theorem ctlAbort_frame {s t : State} (h : exec .ctlAbort s = .next t) : sameConfig s t ∧ sameDatapath s t := by
  cases exec_effect h with
  | none => exact ⟨sameConfig_refl s, sameDatapath_refl s⟩
  | fault c info => exact ⟨raiseFault_sameConfig c info s, raiseFault_sameDatapath c info s⟩
  | _ => simp_all

/-- Settles O51: both states are one state with two channels, to which a source command reacts alike; the consumer's commands
and the producer's steps leave configuration and datapath. -/
theorem emissionDependsOnInputAlone : Obligations.EmissionDependsOnInputAlone := by
  refine ⟨fun s₁ s₂ t₁ t₂ i hi hp haccept hc hd e₁ e₂ => ?_, fun s t i hi h => ?_, fun s => ?_⟩
  · have a₁ : Accepted i s₁ s₁ := fun hr => (haccept hr).imp_right And.left
    have a₂ : Accepted i s₁ s₂ := fun hr => (haccept hr).imp_right And.right
    rw [eq_withChannel hp hc hd] at e₂
    exact (source_reaction hi s₁).alike a₁ a₂ e₁ e₂
  · rcases hi with rfl | rfl
    · obtain ⟨hc, hd, hp, hq⟩ := snkGet_frame h
      exact ⟨hc, hd, fun _ => ⟨hp, hq⟩⟩
    · obtain ⟨hc, hd⟩ := ctlAbort_frame h
      exact ⟨hc, hd, by simp⟩
  · exact ⟨producerStep_sameConfig s, producerStep_sameDatapath s⟩

end Sys2Proof.Machine
end

section
/-! PROOFS. Words and commands. Each row of the opcode map reads its own fields (`Instr.readFrom`), so decoding is one mask test and
one reading of fields, and encoding is that reading undone. -/

namespace Sys2Proof

/-! ## The row of a command -/

/-- The word lies in the command's row of the opcode map: the row's mask check passes (R89). -/
def RowHolds (i : Instr) (w : Word) : Prop :=
  ∃ r ∈ opcodeTable, r.mnemonic = rowMnemonic i ∧ w &&& r.mask = r.pattern

/-- The command of the same row whose operands are the fields of the word (R82). -/
def Instr.readFrom (w : Word) : Instr → Instr
  | .cfgWrite _ _ => .cfgWrite (regField w) (dataField w)
  | .cfgRead _ => .cfgRead (regField w)
  | .cfgDerive _ => .cfgDerive (fmtField w)
  | .qClassify _ => .qClassify (dataField w)
  | .srcSample _ => .srcSample (dataField w)
  | .srcByte _ => .srcByte (byteField w)
  | i => i

/-- Each command has one row, whose mask check is the command's format (R81, R96). -/
@[simp] theorem rowHolds_iff (w : Word) :
    (∀ reg data, RowHolds (.cfgWrite reg data) w ↔ w &&& 0xFF000000#32 = 0x10000000#32) ∧
    (∀ reg, RowHolds (.cfgRead reg) w ↔ w &&& 0xFF00FFFF#32 = 0x20000000#32) ∧
    (∀ fmt, RowHolds (.cfgDerive fmt) w ↔ w &&& 0xFFF8FFFF#32 = 0x30000000#32) ∧
    (RowHolds .ctlStart w ↔ w &&& 0xFFFFFFFF#32 = 0x40000000#32) ∧
    (∀ data, RowHolds (.qClassify data) w ↔ w &&& 0xFFFF0000#32 = 0x50000000#32) ∧
    (∀ data, RowHolds (.srcSample data) w ↔ w &&& 0xFFFF0000#32 = 0x60000000#32) ∧
    (∀ byte, RowHolds (.srcByte byte) w ↔ w &&& 0xFFFFFF00#32 = 0x70000000#32) ∧
    (RowHolds .srcEof w ↔ w &&& 0xFFFFFFFF#32 = 0x80000000#32) ∧
    (RowHolds .snkGet w ↔ w &&& 0xFFFFFFFF#32 = 0x90000000#32) ∧
    (RowHolds .ctlAbort w ↔ w &&& 0xFFFFFFFF#32 = 0xA0000000#32) ∧
    (RowHolds .ctlReset w ↔ w &&& 0xFFFFFFFF#32 = 0xB0000000#32) := by
  simp [RowHolds, opcodeTable, rowMnemonic]

/-- A command's own word lies in its row. -/
theorem rowHolds_encode (i : Instr) : RowHolds i (encode i) := by
  have own : Laws.EncodeMatch.Statement i := by
    cases i with
    | cfgWrite reg data => exact Laws.EncodeMatch.cfgWrite reg data
    | cfgRead reg => exact Laws.EncodeMatch.cfgRead reg
    | cfgDerive fmt => exact Laws.EncodeMatch.cfgDerive fmt
    | ctlStart => exact Laws.EncodeMatch.ctlStart
    | qClassify data => exact Laws.EncodeMatch.qClassify data
    | srcSample data => exact Laws.EncodeMatch.srcSample data
    | srcByte byte => exact Laws.EncodeMatch.srcByte byte
    | srcEof => exact Laws.EncodeMatch.srcEof
    | snkGet => exact Laws.EncodeMatch.snkGet
    | ctlAbort => exact Laws.EncodeMatch.ctlAbort
    | ctlReset => exact Laws.EncodeMatch.ctlReset
  obtain ⟨r, hr, hm, -, hw⟩ := own
  exact ⟨r, hr, hm, hw⟩

/-- Every row is some command's row. -/
theorem exists_rowMnemonic : ∀ r ∈ opcodeTable, ∃ i, r.mnemonic = rowMnemonic i := by
  simp only [opcodeTable, List.forall_mem_cons, List.not_mem_nil, false_implies, implies_true, and_true]
  exact ⟨⟨.cfgWrite 0 0, rfl⟩, ⟨.cfgRead 0, rfl⟩, ⟨.cfgDerive 0, rfl⟩, ⟨.ctlStart, rfl⟩, ⟨.qClassify 0, rfl⟩,
    ⟨.srcSample 0, rfl⟩, ⟨.srcByte 0, rfl⟩, ⟨.srcEof, rfl⟩, ⟨.snkGet, rfl⟩, ⟨.ctlAbort, rfl⟩, ⟨.ctlReset, rfl⟩⟩

/-- A mask that fixes the whole of OP fixes it to the pattern's OP (R80). -/
theorem opField_of_mask {w mask pattern : Word} (hw : w &&& mask = pattern) (hmask : opField mask = BitVec.allOnes 4) :
    opField w = opField pattern :=
  calc opField w = opField w &&& opField mask := by rw [hmask, BitVec.and_allOnes]
    _ = opField (w &&& mask) := BitVec.extractLsb'_and.symm
    _ = opField pattern := by rw [hw]

/-- A word in a row has the row's OP (R89). -/
theorem opField_of_row {w : Word} {r : OpRow} (hr : r ∈ opcodeTable) (hw : w &&& r.mask = r.pattern) :
    opField w = r.op := by
  have fixed : ∀ r ∈ opcodeTable, opField r.mask = BitVec.allOnes 4 ∧ opField r.pattern = r.op := by decide
  obtain ⟨hmask, hpattern⟩ := fixed r hr
  rw [opField_of_mask hw hmask, hpattern]

/-! ## Decoding is a mask test and a reading of fields -/

/-- A word in a command's row spells the command of that row with the word's fields. -/
theorem decodeWord_of_rowHolds {i : Instr} {w : Word} (h : RowHolds i w) : decodeWord w = some (i.readFrom w) := by
  cases i
  all_goals
    simp only [rowHolds_iff] at h
    rw [decodeWord, opField_of_mask h rfl]
    simp [opField, h, Instr.readFrom]

/-- A word that spells a command lies in that command's row, and its fields are the command's operands. -/
theorem rowHolds_of_decodeWord {i : Instr} {w : Word} (h : decodeWord w = some i) :
    RowHolds i w ∧ i.readFrom w = i := by
  unfold decodeWord at h
  split at h
  case h_12 => cases h
  all_goals
    split at h
    · next hw => cases h; exact ⟨by simpa using hw, rfl⟩
    · cases h

/-! ## Encoding undoes the reading -/

/-- A command is read back from its own word. -/
theorem readFrom_encode (i : Instr) : i.readFrom (encode i) = i := by
  cases i with
  | cfgWrite reg data =>
    have hreg : regField (encode (.cfgWrite reg data)) = reg := by
      rw [regField, field_eq_iff, toNat_encode_cfgWrite]; omega
    have hdata : dataField (encode (.cfgWrite reg data)) = data := by
      rw [dataField, field_eq_iff, toNat_encode_cfgWrite]; omega
    simp only [Instr.readFrom, hreg, hdata]
  | cfgRead reg =>
    have hreg : regField (encode (.cfgRead reg)) = reg := by
      rw [regField, field_eq_iff, toNat_encode_cfgRead]; omega
    simp only [Instr.readFrom, hreg]
  | cfgDerive fmt =>
    have hfmt : fmtField (encode (.cfgDerive fmt)) = fmt := by
      rw [fmtField, field_eq_iff, toNat_encode_cfgDerive]; omega
    simp only [Instr.readFrom, hfmt]
  | qClassify data =>
    have hdata : dataField (encode (.qClassify data)) = data := by
      rw [dataField, field_eq_iff, toNat_encode_qClassify]; omega
    simp only [Instr.readFrom, hdata]
  | srcSample data =>
    have hdata : dataField (encode (.srcSample data)) = data := by
      rw [dataField, field_eq_iff, toNat_encode_srcSample]; omega
    simp only [Instr.readFrom, hdata]
  | srcByte byte =>
    have hbyte : byteField (encode (.srcByte byte)) = byte := by
      rw [byteField, field_eq_iff, toNat_encode_srcByte]; omega
    simp only [Instr.readFrom, hbyte]
  | ctlStart | srcEof | snkGet | ctlAbort | ctlReset => rfl

/-- The command read from a word of its row has that word. -/
theorem encode_readFrom {i : Instr} {w : Word} (h : RowHolds i w) : encode (i.readFrom w) = w := by
  rw [← BitVec.toNat_inj]
  cases i with
  | cfgWrite reg data =>
    simp only [rowHolds_iff, mask_rd_iff, field_eq_iff, BitVec.toNat_ofNat] at h
    simp only [Instr.readFrom, toNat_encode_cfgWrite, regField, dataField, toNat_field]
    omega
  | cfgRead reg =>
    simp only [rowHolds_iff, mask_r_iff, field_eq_iff, BitVec.toNat_ofNat] at h
    simp only [Instr.readFrom, toNat_encode_cfgRead, regField, toNat_field]
    omega
  | cfgDerive fmt =>
    simp only [rowHolds_iff, mask_fmt_iff, field_eq_iff, BitVec.toNat_ofNat] at h
    simp only [Instr.readFrom, toNat_encode_cfgDerive, fmtField, toNat_field]
    omega
  | qClassify data =>
    simp only [rowHolds_iff, mask_classify_iff, field_eq_iff, BitVec.toNat_ofNat] at h
    simp only [Instr.readFrom, toNat_encode_qClassify, dataField, toNat_field]
    omega
  | srcSample data =>
    simp only [rowHolds_iff, mask_sample_iff, field_eq_iff, BitVec.toNat_ofNat] at h
    simp only [Instr.readFrom, toNat_encode_srcSample, dataField, toNat_field]
    omega
  | srcByte byte =>
    simp only [rowHolds_iff, mask_d8_iff, field_eq_iff, BitVec.toNat_ofNat] at h
    simp only [Instr.readFrom, toNat_encode_srcByte, byteField, toNat_field]
    omega
  | ctlStart | srcEof | snkGet | ctlAbort | ctlReset =>
    simp only [rowHolds_iff, mask_n_iff] at h
    rw [h]
    rfl

/-! ## The statements about encodings -/

/-- Settles O1: a command's word lies in the command's row, and its fields are the command's operands. -/
theorem decodeInvertsEncode : Obligations.DecodeInvertsEncode := by
  intro i
  rw [decodeWord_of_rowHolds (rowHolds_encode i), readFrom_encode]

/-- Settles O2: the command was read from the word, and encoding undoes the reading. -/
theorem encodeInvertsDecode : Obligations.EncodeInvertsDecode := by
  intro w i h
  obtain ⟨hrow, hread⟩ := rowHolds_of_decodeWord h
  rw [← hread, encode_readFrom hrow]

/-- Settles O3: a row that holds spells its own command and a command's own row holds; a word in two rows would give them one
OP. -/
theorem wordIsIllegalExactlyWhenNoRowMatches : Obligations.WordIsIllegalExactlyWhenNoRowMatches := by
  have distinct : (opcodeTable.map (·.op)).Nodup := by decide
  refine ⟨fun w => ⟨fun hd r hr hw => ?_, fun hno => ?_⟩, fun w i h => ?_, distinct, fun w r₁ h₁ r₂ h₂ hw₁ hw₂ => ?_⟩
  · obtain ⟨i, hi⟩ := exists_rowMnemonic r hr
    rw [decodeWord_of_rowHolds ⟨r, hr, hi, hw⟩] at hd
    cases hd
  · rw [Option.eq_none_iff_forall_ne_some]
    intro i h
    obtain ⟨⟨r, hr, -, hw⟩, -⟩ := rowHolds_of_decodeWord h
    exact hno r hr hw
  · obtain ⟨⟨r, hr, hm, hw⟩, -⟩ := rowHolds_of_decodeWord h
    exact ⟨r, hr, (opField_of_row hr hw).symm, hw, hm⟩
  · exact List.inj_on_of_nodup_map distinct h₁ h₂ ((opField_of_row h₁ hw₁).symm.trans (opField_of_row h₂ hw₂))

/-- Settles O4: the decoder evaluated on fifteen literal words, eleven of a command and four illegal. -/
theorem writtenOutWordsDecode : Obligations.WrittenOutWordsDecode := by
  unfold Obligations.WrittenOutWordsDecode
  decide

end Sys2Proof
end

section
/-! PROOFS. What the consumer receives: the codes of a response, and the rounds of a draining block. In each round the producer has a
turn and the consumer then gets one response, so both runs of `DrainingEndsWithEos` are inductions over the bits on their way. -/

namespace Sys2Proof.Machine

/-! ## Responses -/

/-- Settles O48: KIND 0 stands before any register value, and every other response is one of eight words. -/
theorem responsesCarryTheirCodes : Obligations.ResponsesCarryTheirCodes :=
  ⟨fun _ => rfl, by decide⟩

/-! ## The producer's part of a round -/

/-- The bits on their way to the consumer, oldest first: in the slot and staged. -/
def undelivered (s : State) : List BitCode := inSlot s ++ s.outq

/-- Input has ended: the block drains, or has drained and closed the channel (R204). -/
def Draining (s : State) : Prop :=
  s.phase = .draining ∨ (s.phase = .done ∧ s.closed = true ∧ s.outq = [])

/-- The producer leaves what the agents have issued and received and their turns. -/
@[simp] theorem producerStep_environment (s : State) :
    (producerStep s).consumerQ = s.consumerQ ∧ (producerStep s).sched = s.sched ∧
    (producerStep s).responses = s.responses := by
  rcases producerStep_cases s with ⟨b, rest, -, -, -, e⟩ | ⟨-, -, e⟩ | ⟨-, -, e⟩ <;> simp [e]

/-- After the producer's turn the oldest bit on its way is in the slot. -/
theorem producerStep_of_undelivered_cons {s : State} {b : BitCode} {rest : List BitCode} (hd : Draining s)
    (hu : undelivered s = b :: rest) :
    (producerStep s).slotFull = true ∧ (producerStep s).slotVal = b ∧ (producerStep s).outq = rest ∧
    Draining (producerStep s) := by
  cases hf : s.slotFull with
  | true =>
    obtain ⟨rfl, rfl⟩ : s.slotVal = b ∧ s.outq = rest := by simpa [undelivered, inSlot, hf] using hu
    rcases producerStep_cases s with ⟨_, _, -, hf', -, -⟩ | ⟨-, hq, e⟩ | ⟨-, -, e⟩
    · simp [hf] at hf'
    · simp [e, hf, hq, Draining]
    · rw [e]
      exact ⟨hf, rfl, rfl, hd⟩
  | false =>
    have hq : s.outq = b :: rest := by simpa [undelivered, inSlot, hf] using hu
    have hp : s.phase = .draining := by simpa [Draining, hq] using hd
    have henabled : pushEnabled s = true := (pushEnabled_iff s).2 ⟨.inr hp, by simp [hq], hf⟩
    simp [producerStep, henabled, push, hq, Draining, hp]

/-- After the producer's turn with no bit on its way, the run has ended. -/
theorem producerStep_of_undelivered_nil {s : State} (hd : Draining s) (hu : undelivered s = []) :
    (producerStep s).slotFull = false ∧ (producerStep s).phase = .done ∧ (producerStep s).closed = true := by
  obtain ⟨hf, hq⟩ : s.slotFull = false ∧ s.outq = [] := by simpa [undelivered, inSlot] using hu
  rcases producerStep_cases s with ⟨_, _, -, -, hq', -⟩ | ⟨-, -, e⟩ | ⟨-, hc, e⟩
  · simp [hq] at hq'
  · simp [e, hf]
  · have hp : s.phase ≠ .draining := fun hp => by simp [(closeEnabled_iff s).2 ⟨hp, hq⟩] at hc
    obtain ⟨hdone, hclosed, -⟩ := hd.resolve_left hp
    rw [e]
    exact ⟨hf, hdone, hclosed⟩

/-! ## The consumer's part of a round -/

/-- Taking a word from a port leaves the channel and the responses, and makes that port the one that is answered (R13). -/
@[simp] theorem taken_fields (s : State) (p : Port) (ws : List Word) :
    (taken s p ws).phase = s.phase ∧ (taken s p ws).outq = s.outq ∧ (taken s p ws).slotFull = s.slotFull ∧
    (taken s p ws).slotVal = s.slotVal ∧ (taken s p ws).closed = s.closed ∧ (taken s p ws).responses = s.responses ∧
    (taken s p ws).port = p := by
  simp [taken]

/-- The consumer's turn, when its oldest command is SNK.GET. -/
theorem step_of_snkGet {s : State} {turns : List Agent} {q : List Word} (hs : s.sched = .external .consumer :: turns)
    (hq : s.consumerQ = encode .snkGet :: q) : step s = exec .snkGet (taken s .consumer q) := by
  rw [stepRunsTheDecodedCommand s .consumer turns _ q .snkGet hs hq (decodeInvertsEncode .snkGet), taken, hs, List.tail_cons]

/-- SNK.GET takes the bit in the slot (R202). -/
theorem exec_snkGet_of_slotFull {s : State} (h : s.slotFull = true) :
    exec .snkGet s = .next { respond (.bit s.slotVal) s with slotFull := false, slotVal := .zero } := by
  simp [exec, execSnkGet, h]

/-- SNK.GET finds a closed channel (R202). -/
theorem exec_snkGet_of_closed {s : State} (hf : s.slotFull = false) (hp : s.phase = .done) (hc : s.closed = true) :
    exec .snkGet s = .next (respond .eos s) := by
  simp [exec, execSnkGet, hf, hp, hc]

/-! ## A round -/

/-- In two steps the consumer's oldest command is answered with `r`: the first step leaves the consumer as it is. -/
def Round (r : Response) (s t : State) : Prop :=
  ∃ m, step s = .next m ∧ m.consumerQ = s.consumerQ ∧ m.responses = s.responses ∧
    step m = .next t ∧ t.consumerQ = s.consumerQ.tail ∧ t.responses = s.responses ++ [(.consumer, r)]

/-- What a round leaves: two turns and one command are spent, and one response has come. -/
theorem Round.outcome {r : Response} {s t : State} (h : Round r s t) :
    t.sched = s.sched.tail.tail ∧ t.consumerQ = s.consumerQ.tail ∧ t.responses = s.responses ++ [(.consumer, r)] := by
  obtain ⟨m, hm, -, -, ht, hq, hr⟩ := h
  exact ⟨by rw [step_sched ht, step_sched hm], hq, hr⟩

section
variable {s : State} {turns : List Agent} {q : List Word}
  (hs : s.sched = .producer :: .external .consumer :: turns) (hq : s.consumerQ = encode .snkGet :: q)
include hs hq

/-- The producer's turn and then the consumer's, whose oldest command is SNK.GET, are a round. -/
theorem round_of_exec_snkGet {m t : State} {r : Response}
    (hm : producerStep { s with sched := .external .consumer :: turns } = m)
    (ht : exec .snkGet (taken m .consumer q) = .next t) (hcq : t.consumerQ = q)
    (hr : t.responses = m.responses ++ [(.consumer, r)]) : Round r s t := by
  obtain ⟨hmq, hms, hmr⟩ := producerStep_environment { s with sched := .external .consumer :: turns }
  rw [hm] at hmq hms hmr
  have hstep : step m = .next t := by rw [step_of_snkGet hms (hmq.trans hq), ht]
  exact ⟨m, by rw [stepGivesTheProducerItsTurn.1 s _ hs, hm], hmq, hmr, hstep, by rw [hcq, hq, List.tail_cons],
    by rw [hr, hmr]⟩

/-- A round of a draining block delivers the oldest bit on its way. -/
theorem exists_round_bit {b : BitCode} {rest : List BitCode} (hd : Draining s) (hu : undelivered s = b :: rest) :
    ∃ t, Round (.bit b) s t ∧ Draining t ∧ undelivered t = rest := by
  obtain ⟨hf, hv, ho, hd'⟩ :=
    producerStep_of_undelivered_cons (s := { s with sched := .external .consumer :: turns }) hd hu
  generalize hm : producerStep { s with sched := .external .consumer :: turns } = m at hf hv ho hd'
  refine ⟨_, round_of_exec_snkGet hs hq hm (exec_snkGet_of_slotFull (by simp [hf])) rfl (by simp [hv]), ?_, ?_⟩
  · simpa [Draining] using hd'
  · simp [undelivered, inSlot, ho]

/-- A round of a draining block with no bit on its way delivers EOS, and the block is DONE. -/
theorem exists_round_eos (hd : Draining s) (hu : undelivered s = []) : ∃ t, Round .eos s t ∧ t.phase = .done := by
  obtain ⟨hf, hp, hc⟩ :=
    producerStep_of_undelivered_nil (s := { s with sched := .external .consumer :: turns }) hd hu
  generalize hm : producerStep { s with sched := .external .consumer :: turns } = m at hf hp hc
  exact ⟨_, round_of_exec_snkGet hs hq hm (exec_snkGet_of_closed (by simp [hf]) (by simp [hp]) (by simp [hc])) rfl
    (by simp), by simp [hp]⟩

end

/-! ## Round after round -/

/-- The responses to a consumer that drains the bits `bs`: each of them, and then EOS (R72, R210). -/
def drainAnswers (bs : List BitCode) : List (Port × Response) :=
  bs.map (fun b => (.consumer, .bit b)) ++ [(.consumer, .eos)]

/-- A round is two steps of a run. -/
theorem run_of_round {r : Response} {s t : State} (h : Round r s t) (k : Nat) :
    Sys2Proof.core.run (k + 2) s = Sys2Proof.core.run k t := by
  obtain ⟨m, hm, -, -, ht, -, -⟩ := h
  have hm' : Sys2Proof.core.step s = .next m := hm
  have ht' : Sys2Proof.core.step m = .next t := ht
  simp only [Host.Core.run, hm', ht']

/-- A consumer that has issued a SNK.GET for every bit on its way, and one more, receives the bits and EOS. -/
theorem run_drains (bs : List BitCode) : ∀ s : State, Draining s → undelivered s = bs →
    s.sched = drainTurns (bs.length + 1) → s.consumerQ = List.replicate (bs.length + 1) (encode .snkGet) →
    ∃ t, Sys2Proof.core.run (2 * (bs.length + 1)) s = .next t ∧ t.phase = .done ∧ t.consumerQ = [] ∧
      t.responses = s.responses ++ drainAnswers bs := by
  induction bs with
  | nil =>
    intro s hd hu hs hq
    obtain ⟨t, hround, hp⟩ := exists_round_eos hs hq hd hu
    obtain ⟨-, hcq, hr⟩ := hround.outcome
    exact ⟨t, run_of_round hround 0, hp, by simp [hcq, hq], hr⟩
  | cons b bs ih =>
    intro s hd hu hs hq
    obtain ⟨t, hround, hd', hu'⟩ := exists_round_bit hs hq hd hu
    obtain ⟨hsched, hcq, hr⟩ := hround.outcome
    obtain ⟨u, hrun, hp, hcq', hr'⟩ := ih t hd' hu' (by rw [hsched, hs]; rfl) (by rw [hcq, hq]; rfl)
    exact ⟨u, (run_of_round hround _).trans hrun, hp, hcq', by simp [hr', hr, drainAnswers]⟩

/-- The drain's next SNK.GET is issued by a consumer that waits for nothing. -/
theorem issueWhenAnswered_of_nil (i : Instr) {s : State} (h : s.consumerQ = []) :
    issueWhenAnswered i s = { s with consumerQ := [encode i] } := by
  rw [issueWhenAnswered, if_pos h]

/-- A response to the consumer is the next one of those the drain looks at. -/
theorem consumerResponsesSince_append {start : Nat} {s t : State} {r : Response} (hstart : start ≤ s.responses.length)
    (h : t.responses = s.responses ++ [(.consumer, r)]) :
    consumerResponsesSince start t = consumerResponsesSince start s ++ [r] := by
  simp [consumerResponsesSince, h, List.drop_append_of_le_length hstart]

/-- A round is two steps of a drain that has not ended: the SNK.GET it issues waits through the first. -/
theorem drainFrom_of_round {start : Nat} {r : Response} {s t : State}
    (hall : (consumerResponsesSince start s).all drainGoesOn = true) (hq : s.consumerQ = [])
    (h : Round r { s with consumerQ := [encode .snkGet] } t) (k : Nat) :
    drainFrom start (k + 2) s = drainFrom start k t := by
  obtain ⟨m, hm, hmq, hmr, ht, -, -⟩ := h
  have hm' : step (issueWhenAnswered .snkGet s) = .next m := by rw [issueWhenAnswered_of_nil _ hq, hm]
  have ht' : step (issueWhenAnswered .snkGet m) = .next t := by rw [issueWhenAnswered, if_neg (by simp [hmq]), ht]
  have hall' : (consumerResponsesSince start m).all drainGoesOn = true := by rw [consumerResponsesSince, hmr]; exact hall
  rw [drainFrom_goes_on (k + 1) hall hm', drainFrom_goes_on k hall' ht']

/-- `snk.drain` receives every bit on its way and EOS, and then ends, whatever turns and steps are left. -/
theorem drainFrom_drains (start k : Nat) (turns : List Agent) (bs : List BitCode) : ∀ s : State, Draining s →
    undelivered s = bs → s.sched = drainTurns (bs.length + 1) ++ turns → s.consumerQ = [] →
    start ≤ s.responses.length → (consumerResponsesSince start s).all drainGoesOn = true →
    ∃ t, drainFrom start (2 * (bs.length + 1) + k) s = .next t ∧ t.phase = .done ∧ t.consumerQ = [] ∧
      t.responses = s.responses ++ drainAnswers bs ∧ t.sched = turns := by
  induction bs with
  | nil =>
    intro s hd hu hs hq hstart hall
    obtain ⟨t, hround, hp⟩ := exists_round_eos (s := { s with consumerQ := [encode .snkGet] }) hs rfl hd hu
    obtain ⟨hsched, hcq, hr⟩ := hround.outcome
    have hrun := drainFrom_of_round hall hq hround k
    have hended : (consumerResponsesSince start t).all drainGoesOn = false := by
      simp [consumerResponsesSince_append hstart hr]
    rw [drainFrom_ended k hended, Nat.add_comm] at hrun
    exact ⟨t, hrun, hp, hcq, hr, by rw [hsched, hs]; rfl⟩
  | cons b bs ih =>
    intro s hd hu hs hq hstart hall
    obtain ⟨t, hround, hd', hu'⟩ := exists_round_bit (s := { s with consumerQ := [encode .snkGet] }) hs rfl hd hu
    obtain ⟨hsched, hcq, hr⟩ := hround.outcome
    have hrun := drainFrom_of_round hall hq hround (2 * (bs.length + 1) + k)
    have hall' : (consumerResponsesSince start t).all drainGoesOn = true := by
      rw [consumerResponsesSince_append hstart hr, List.all_append, hall]; rfl
    obtain ⟨u, hrest, hp, hcq', hr', hsched'⟩ :=
      ih t hd' hu' (by rw [hsched, hs]; rfl) hcq (by simp [hr]; omega) hall'
    refine ⟨u, ?_, hp, hcq', by simp [hr', hr, drainAnswers], hsched'⟩
    rw [← hrest, ← hrun, List.length_cons]
    congr 1
    omega

/-- Settles O50: both runs are rounds, one for each bit on its way and one for EOS. -/
theorem drainingEndsWithEos : Obligations.DrainingEndsWithEos := by
  intro s n hp hn received
  have hd : Draining s := .inl hp
  have hreceived : received = s.responses ++ drainAnswers (undelivered s) := List.append_assoc ..
  rw [hreceived]
  subst hn
  refine ⟨fun hs hq => run_drains _ s hd rfl hs hq, fun turns k hs hq => ?_⟩
  rw [snkDrain_begins _ hq]
  exact drainFrom_drains _ k turns _ s hd rfl hs hq le_rfl (by simp [consumerResponsesSince])

end Sys2Proof.Machine
end

section
/-! PROOFS. The quantizer: its level from an amplitude's place between the thresholds of its depth, what Q.CLASSIFY answers, and that
a run takes the same level from the same sample. -/

namespace Sys2Proof.Machine

/-! ## The threshold table -/

/-- An amplitude's level is its place between the thresholds, themselves MID (R102). -/
theorem quantize_eq_some_iff {d : Half} {depth : Nat} {a lo hi : Int} (ha : amplitude d depth = some a)
    (ht : thresholds depth = some (lo, hi)) (hle : lo ≤ hi) :
    (quantize d depth = some .low ↔ a < lo) ∧ (quantize d depth = some .mid ↔ lo ≤ a ∧ a ≤ hi) ∧
    (quantize d depth = some .high ↔ hi < a) := by
  have hq : quantize d depth = some (if a < lo then .low else if a > hi then .high else .mid) := by
    simp only [quantize, ha, ht]
  rw [hq]
  by_cases hlow : a < lo
  · simp only [if_pos hlow, Option.some.injEq, reduceCtorEq, true_iff, false_iff]
    omega
  · by_cases hhigh : a > hi
    · simp only [if_neg hlow, if_pos hhigh, Option.some.injEq, reduceCtorEq, true_iff, false_iff]
      omega
    · simp only [if_neg hlow, if_neg hhigh, Option.some.injEq, reduceCtorEq, true_iff, false_iff]
      omega

/-- The amplitude at depth 8 is the low byte, unsigned (R100). -/
theorem amplitude_8 (d : Half) : amplitude d 8 = some ((d.extractLsb' 0 8).toNat : Int) := rfl

/-- The amplitude at depth 16 is the whole sample, signed (R100). -/
theorem amplitude_16 (d : Half) : amplitude d 16 = some d.toInt := rfl

/-- Settles O29: at each depth the amplitude stands against that depth's thresholds, and integers below 76 are those up to 75. -/
theorem quantizerFollowsTheThresholdTable : Obligations.QuantizerFollowsTheThresholdTable := by
  refine ⟨fun d => ?_, fun d => ?_, thresholds_8, thresholds_16, by decide⟩
  · obtain ⟨hlow, hmid, hhigh⟩ := quantize_eq_some_iff (amplitude_8 d) thresholds_8 (by decide)
    rw [hlow, hmid, hhigh]
    omega
  · obtain ⟨hlow, hmid, hhigh⟩ := quantize_eq_some_iff (amplitude_16 d) thresholds_16 (by decide)
    rw [hlow, hmid, hhigh]
    omega

/-! ## Q.CLASSIFY -/

/-- A sample has a level at a legal depth (R103). -/
theorem exists_level {depth : Nat} (d : Half) (h : depth = 8 ∨ depth = 16) : ∃ l, quantize d depth = some l :=
  Option.isSome_iff_exists.1 ((quantize_isSome_iff d depth).2 h)

/-- A sample has no level at an illegal depth (R103). -/
theorem quantize_eq_none {depth : Nat} (d : Half) (h8 : depth ≠ 8) (h16 : depth ≠ 16) : quantize d depth = none := by
  rw [← Option.not_isSome_iff_eq_none, quantize_isSome_iff]
  exact not_or.2 ⟨h8, h16⟩

/-- Q.CLASSIFY answers with the level and changes nothing else (R106). -/
theorem exec_qClassify_of_level {d : Half} {s : State} {l : Level} (hf : s.phase ≠ .faulted)
    (hl : quantize d (ctrlDepth s) = some l) : exec (.qClassify d) s = .next (respond (.level l) s) := by
  simp only [exec, execQClassify, if_neg hf, hl]

/-- Q.CLASSIFY of a sample without a level faults with the depth (R106). -/
theorem exec_qClassify_of_no_level {d : Half} {s : State} (hf : s.phase ≠ .faulted)
    (hl : quantize d (ctrlDepth s) = none) :
    exec (.qClassify d) s = .next (respond .fault (raiseFault .depth (BitVec.ofNat 16 (ctrlDepth s)) s)) := by
  simp only [exec, execQClassify, if_neg hf, hl]

/-- Q.CLASSIFY in FAULTED responds FAULT and changes nothing else (R106). -/
theorem exec_qClassify_of_faulted (d : Half) {s : State} (hf : s.phase = .faulted) :
    exec (.qClassify d) s = .next (respond .fault s) := if_pos hf

/-- Settles O30: the sample has a level exactly at depths 8 and 16, and outside FAULTED the answer goes by that. -/
theorem classifyResponds : Obligations.ClassifyResponds := by
  refine fun s d => ⟨fun hf hd => ?_, fun hf h8 h16 => ?_, exec_qClassify_of_faulted d⟩
  · obtain ⟨l, hl⟩ := exists_level d hd
    exact ⟨l, hl, exec_qClassify_of_level hf hl⟩
  · rw [exec_qClassify_of_no_level hf (quantize_eq_none d h8 h16), raiseFault_of_not_faulted _ _ hf]
    rfl

/-! ## A sample of a run -/

/-- Settles O31: at a legal depth the sample has one level, with which Q.CLASSIFY answers and the mode's demodulator steps. -/
theorem runQuantizesAsClassifyDoes : Obligations.RunQuantizesAsClassifyDoes := by
  intro s d hp hq hd
  obtain ⟨l, hl⟩ := exists_level d hd
  have hw : ¬inputWaits s = true := fun h => ((inputWaits_iff s).1 h).2 hq
  refine ⟨l, exec_qClassify_of_level (by simp [hp]) hl, fun hm => ?_, fun hm => ?_⟩
  · rw [exec_srcSample_of_level hw hp (.inl hm) hl, if_pos hm]
  · rw [exec_srcSample_of_level hw hp (.inr hm) hl, if_neg (by simp [hm])]

end Sys2Proof.Machine
end

section
/-! PROOFS. The duration-count demodulator: the thresholds CFG.DERIVE FB computes for it, its step on a sample, what the width of the
counters leaves unchanged, and the end of input. -/

namespace Sys2Proof.Machine

/-! ## CFG.DERIVE FB -/

/-- In IDLE, results that fit are written (R222). -/
theorem exec_cfgDerive_of_some {fmt : BitVec 3} {f : Fmt} {s t : State} (hp : s.phase = .idle)
    (hf : fmtOfCode fmt = some f) (hd : deriveState f s = some t) : exec (.cfgDerive fmt) s = .next t := by
  simp [exec, execCfgDerive, hp, hf, hd]

/-- In IDLE, a result that does not fit faults, and nothing is written (R222, R264). -/
theorem exec_cfgDerive_of_none {fmt : BitVec 3} {f : Fmt} {s : State} (hp : s.phase = .idle)
    (hf : fmtOfCode fmt = some f) (hd : deriveState f s = none) :
    exec (.cfgDerive fmt) s = .next (raiseFault .derive 0 s) := by
  simp [exec, execCfgDerive, hp, hf, hd]

/-- Settles O18: N1 is the larger threshold, so it alone decides the fault, and it exceeds 0xFFFF from R = 958 · 65538 on. -/
theorem deriveFbComputesTheThresholds : Obligations.DeriveFbComputesTheThresholds := by
  refine fun s hp => ⟨fun hbig => ?_, fun hsmall => ?_⟩
  · have hnone : deriveFb s.rate.toNat = none := deriveFb_none (.inl (by omega))
    exact exec_cfgDerive_of_none hp rfl (congrArg (Option.map (writeFb · s)) hnone)
  · obtain ⟨p, hsome, hn1, hn0⟩ := deriveFb_some (r := s.rate.toNat) (by omega)
    refine ⟨p.1, p.2, exec_cfgDerive_of_some hp rfl (congrArg (Option.map (writeFb · s)) hsome), ?_⟩
    rw [hn1, hn0]
    refine ⟨?_, ?_, fun run => ?_⟩ <;> omega

/-! ## The step on a sample -/

/-- A run of at least N1 samples is a 1 (R122). -/
theorem dcdClassify_one {n1 : Half} (n0 : Half) {run : Nat} (h1 : n1.toNat ≤ run) : dcdClassify n1 n0 run = some .one :=
  if_pos h1

/-- A run below N1 of at least N0 samples is a 0 (R122). -/
theorem dcdClassify_zero {n1 n0 : Half} {run : Nat} (h1 : run < n1.toNat) (h0 : n0.toNat ≤ run) :
    dcdClassify n1 n0 run = some .zero :=
  (if_neg (Nat.not_le.2 h1)).trans (if_pos h0)

/-- A run below both thresholds is discarded (R122). -/
theorem dcdClassify_none {n1 n0 : Half} {run : Nat} (h1 : run < n1.toNat) (h0 : run < n0.toNat) :
    dcdClassify n1 n0 run = none :=
  (if_neg (Nat.not_le.2 h1)).trans (if_neg (Nat.not_le.2 h0))

/-- LOW and MID without a run change nothing (R122). -/
theorem dcdStep_waiting {l : Level} {s : State} (hl : l ≠ .high) (h : s.run = 0) : dcdStep l s = s := by
  cases l with
  | high => exact absurd rfl hl
  | low | mid => exact if_pos h

/-- LOW and MID end a run, whose class is emitted (R122). -/
theorem dcdStep_finalize {l : Level} {s : State} (hl : l ≠ .high) (h : s.run ≠ 0) :
    dcdStep l s = { s with run := 0, outq := s.outq ++ (dcdClassify s.n1 s.n0 s.run.toNat).toList } := by
  cases l with
  | high => exact absurd rfl hl
  | low | mid => exact if_neg h

/-- A sample accepted in DCD mode is a DCD step on its level (R123, R224). -/
theorem exec_srcSample_of_dcd {d : Half} {s : State} {l : Level} (hp : s.phase = .running) (hq : s.outq = [])
    (hm : ctrlMode s = 1) (hl : quantize d (ctrlDepth s) = some l) : exec (.srcSample d) s = .next (dcdStep l s) := by
  have hw : ¬inputWaits s = true := fun h => ((inputWaits_iff s).1 h).2 hq
  rw [exec_srcSample_of_level hw hp (.inl hm) hl, if_pos hm]

/-- Settles O32: the command is the step on the sample's level, and OUTQ, empty before it, holds at most the class of the run. -/
theorem dcdSampleStep : Obligations.DcdSampleStep := by
  intro s d l hp hq hm hl
  rw [exec_srcSample_of_dcd hp hq hm hl]
  refine ⟨?high, fun hlow => ?ends⟩
  case high =>
    rintro rfl
    rfl
  case ends =>
    have hne : l ≠ .high := by
      rintro rfl
      simp at hlow
    refine ⟨fun h => ?_, fun h h1 => ?_, fun h h1 h0 => ?_, fun h h1 h0 => ?_⟩
    · rw [dcdStep_waiting hne h]
    · rw [dcdStep_finalize hne h, dcdClassify_one _ h1, hq]
      rfl
    · rw [dcdStep_finalize hne h, dcdClassify_zero h1 h0, hq]
      rfl
    · rw [dcdStep_finalize hne h, dcdClassify_none h1 h0, hq]
      rfl

/-- Settles O33: what the step appends is the class of a run, if anything. -/
theorem dcdEmitsAtMostOneBit : Obligations.DcdEmitsAtMostOneBit := by
  intro l s
  obtain ⟨_, bs, hstep, hlen, herr⟩ := dcdStep_spec l s
  exact ⟨bs, by rw [hstep], hlen, herr⟩

/-! ## Saturation -/

/-- A threshold has 16 bits, so a count cut off at the 32-bit ceiling reaches it exactly when the count does (R124). -/
theorem le_saturated_iff (t : Half) (n : Nat) : t.toNat ≤ min n (2 ^ 32 - 1) ↔ t.toNat ≤ n := by
  have := t.isLt
  omega

/-- A count cut off at the 32-bit ceiling stays within a 16-bit bound exactly when the count does (R156). -/
theorem saturated_le_iff (t : Half) (n : Nat) : min n (2 ^ 32 - 1) ≤ t.toNat ↔ n ≤ t.toNat := by
  have := t.isLt
  omega

/-- The ceiling takes no count into or out of the Zero window (R156). -/
theorem inZero_saturated (s : State) (n : Nat) : inZero s (min n (2 ^ 32 - 1)) = inZero s n := by
  simp only [inZero, le_saturated_iff, saturated_le_iff]

/-- The ceiling takes no count into or out of the One window (R156). -/
theorem inOne_saturated (s : State) (n : Nat) : inOne s (min n (2 ^ 32 - 1)) = inOne s n := by
  simp only [inOne, le_saturated_iff, saturated_le_iff]

/-- Counting a saturated count gives the next saturated count (R36, R37). -/
theorem countUp_saturated (n : Nat) :
    countUp (BitVec.ofNat 32 (min n (2 ^ 32 - 1))) = BitVec.ofNat 32 (min (n + 1) (2 ^ 32 - 1)) := by
  apply BitVec.eq_of_toNat_eq
  simp only [countUp_toNat, BitVec.toNat_ofNat]
  omega

/-- Settles O34: both classifications compare the count with 16-bit thresholds only. -/
theorem saturationNeverChangesABit : Obligations.SaturationNeverChangesABit := by
  refine ⟨countUp_saturated, fun n1 n0 n => ?_, fun s n => ?_⟩
  · simp only [dcdClassify, le_saturated_iff]
  · simp only [hcdClassify, inZero_saturated, inOne_saturated]

/-! ## End of input -/

/-- Settles O44: one case for each mode, and in TPD mode one on each side of the complete header. -/
theorem endOfInputDiscardsOpenState : Obligations.EndOfInputDiscardsOpenState :=
  fun _ hp => ⟨exec_srcEof_of_dcd hp, exec_srcEof_of_hcd hp, exec_srcEof_of_header hp, fun hm hi =>
    exec_srcEof_of_tpd hp hm (Nat.not_lt.2 hi)⟩

end Sys2Proof.Machine
end

section
/-! PROOFS. The half-cycle demodulator: the windows CFG.DERIVE computes for it, what the overlap check of CTL.START keeps out of a
run, its step on a sample, and the lookback machine cell by cell. -/

namespace Sys2Proof.Machine

/-! ## CFG.DERIVE KCS and MSX -/

/-- The percentage formats: the FMT code, F_Z and F_O (R88, R148). -/
def pctFormats : List (BitVec 3 × Nat × Nat) := [(1, 2400, 4800), (2, 1200, 2400)]

/-- A percentage format's frequencies are positive, F_O twice F_Z, and its derivation is DerivePct at them (R88, R148). -/
theorem pctFormats_spec {p : BitVec 3 × Nat × Nat} (h : p ∈ pctFormats) :
    0 < p.2.1 ∧ p.2.2 = 2 * p.2.1 ∧ ∃ f, fmtOfCode p.1 = some f ∧
      ∀ s, deriveState f s = (derivePct s.rate.toNat p.2.1 p.2.2).map (writeWindows · s) := by
  rcases List.mem_pair.1 h with rfl | rfl
  · exact ⟨by decide, rfl, .kcs, rfl, fun _ => rfl⟩
  · exact ⟨by decide, rfl, .msx, rfl, fun _ => rfl⟩

/-- The counts from `lo` to `hi` are those within 0.8 and 1.2 of the nominal count of frequency `f` at rate `r` (R148). -/
def ExactWindow (r f lo hi : Nat) : Prop :=
  ∀ n : Nat, (lo ≤ n ↔ 2 * r ≤ 5 * f * n) ∧ (n ≤ hi ↔ 5 * f * n ≤ 3 * r)

/-- Rounding the bounds inwards takes no count out of the window and none into it (R148). -/
theorem pctWindow_exact (r : Nat) {f : Nat} (hf : 0 < f) :
    ExactWindow r f (pctWindow r f).1 (pctWindow r f).2 := by
  have hpos : 0 < 5 * f := by omega
  refine fun n => ⟨ceilDiv_le_iff_le_mul hpos, ?_⟩
  rw [Nat.mul_comm (5 * f) n]
  exact Nat.le_div_iff_mul_le hpos

/-- Both bounds fit in 16 bits when the count 0x10000 lies above the window (R148). -/
theorem pctWindow_fits {r f : Nat} (hf : 0 < f) (h : 3 * r < 5 * f * 0x10000) :
    (pctWindow r f).1 ≤ 0xFFFF ∧ (pctWindow r f).2 ≤ 0xFFFF := by
  constructor
  · rw [(pctWindow_exact r hf 0xFFFF).1]
    omega
  · rw [← Nat.lt_succ_iff, ← Nat.not_le, (pctWindow_exact r hf 0x10000).2]
    omega

/-- The largest count of the Zero window exceeds 0xFFFF (R148). -/
theorem derivePct_none {r fz : Nat} (fo : Nat) (hf : 0 < fz) (h : 5 * fz * 0x10000 ≤ 3 * r) : derivePct r fz fo = none :=
  fitWindows_none (.inr (.inl ((pctWindow_exact r hf 0x10000).2.2 h)))

/-- No bound exceeds 0xFFFF unless the largest count of the Zero window does, the One window's nominal count being the
smaller; the windows are then exact (R148). -/
theorem derivePct_some {r fz fo : Nat} (hf : 0 < fz) (hfo : fz ≤ fo) (h : 3 * r < 5 * fz * 0x10000) :
    ∃ w, derivePct r fz fo = some w ∧ ExactWindow r fz w.zmin.toNat w.zmax.toNat ∧
      ExactWindow r fo w.omin.toNat w.omax.toNat := by
  have hpos : 0 < fo := by omega
  have ho : 3 * r < 5 * fo * 0x10000 := h.trans_le (by gcongr)
  obtain ⟨hz1, hz2⟩ := pctWindow_fits hf h
  obtain ⟨ho1, ho2⟩ := pctWindow_fits hpos ho
  obtain ⟨w, hw, hzmin, hzmax, homin, homax⟩ := fitWindows_some ⟨hz1, hz2, ho1, ho2⟩
  refine ⟨w, hw, ?_, ?_⟩
  · rw [hzmin, hzmax]
    exact pctWindow_exact r hf
  · rw [homin, homax]
    exact pctWindow_exact r hpos

/-- Settles O19: in IDLE the command faults or writes as DerivePct does at the format's frequencies. -/
theorem derivePercentWindowsAreExact : Obligations.DerivePercentWindowsAreExact := by
  intro s hp p hmem r tooBig
  obtain ⟨hf, hfo, f, hfmt, hd⟩ := pctFormats_spec hmem
  refine ⟨fun hbig => ?_, fun hsmall => ?_⟩
  · exact exec_cfgDerive_of_none hp hfmt (by rw [hd, derivePct_none _ hf hbig, Option.map_none])
  · obtain ⟨w, hw, hzero, hone⟩ := derivePct_some hf (by omega : p.2.1 ≤ p.2.2) (Nat.not_le.1 hsmall)
    exact ⟨w.zmin, w.zmax, w.omin, w.omax, exec_cfgDerive_of_some hp hfmt (by rw [hd, hw]; rfl), hzero, hone⟩

/-! ## CFG.DERIVE KCS_LEGACY and MSX_LEGACY -/

/-- The legacy formats: the FMT code, F_Z and F_O (R88, R149). -/
def legacyFormats : List (BitVec 3 × Nat × Nat) := [(3, 2400, 4800), (4, 1200, 2400)]

/-- A legacy format's F_O is no less than its F_Z, which is positive, and its derivation is DeriveLegacy at them (R88, R149). -/
theorem legacyFormats_spec {p : BitVec 3 × Nat × Nat} (h : p ∈ legacyFormats) :
    0 < p.2.1 ∧ p.2.1 ≤ p.2.2 ∧ ∃ f, fmtOfCode p.1 = some f ∧
      ∀ s, deriveState f s = (deriveLegacy s.rate.toNat p.2.1 p.2.2).map (writeWindows · s) := by
  rcases List.mem_pair.1 h with rfl | rfl
  · exact ⟨by decide, by decide, .kcsLegacy, rfl, fun _ => rfl⟩
  · exact ⟨by decide, by decide, .msxLegacy, rfl, fun _ => rfl⟩

/-- The Zero window's upper bound exceeds 0xFFFF (R149). -/
theorem deriveLegacy_none {r fz : Nat} (fo : Nat) (h : 0xFFFF < r / (2 * fz) + 2) : deriveLegacy r fz fo = none :=
  fitWindows_none (.inr (.inl h))

/-- The Zero window's upper bound is the largest of the four: when it fits, they all do (R149). -/
theorem deriveLegacy_some {r fz fo : Nat} (hf : 0 < fz) (hfo : fz ≤ fo) (h : r / (2 * fz) + 2 ≤ 0xFFFF) :
    ∃ w, deriveLegacy r fz fo = some w ∧
      w.zmin.toNat = r / (2 * fz) - 2 ∧ w.zmax.toNat = r / (2 * fz) + 2 ∧
      w.omin.toNat = r / (2 * fo) - 2 ∧ w.omax.toNat = r / (2 * fo) + 2 := by
  have hle : r / (2 * fo) ≤ r / (2 * fz) := Nat.div_le_div_left (by omega) (by omega)
  exact fitWindows_some (z := legacyWindow r fz) (o := legacyWindow r fo)
    (by simp only [legacyWindow]; omega)

/-- Settles O20: in IDLE the command faults or writes as DeriveLegacy does, whose truncated subtraction is the clamp to 0. -/
theorem deriveLegacyWindows : Obligations.DeriveLegacyWindows := by
  intro s hp p hmem nz no
  obtain ⟨hf, hfo, f, hfmt, hd⟩ := legacyFormats_spec hmem
  have hnz : nz = (s.rate.toNat / (2 * p.2.1) : Nat) := by push_cast; rfl
  have hno : no = (s.rate.toNat / (2 * p.2.2) : Nat) := by push_cast; rfl
  rw [hnz, hno]
  refine ⟨fun hbig => ?_, fun hsmall => ?_⟩
  · have hnone := deriveLegacy_none (r := s.rate.toNat) (fz := p.2.1) p.2.2 (by omega)
    exact exec_cfgDerive_of_none hp hfmt (by rw [hd, hnone, Option.map_none])
  · obtain ⟨w, hw, hzmin, hzmax, homin, homax⟩ := deriveLegacy_some (r := s.rate.toNat) hf hfo (by omega)
    refine ⟨w.zmin, w.zmax, w.omin, w.omax, exec_cfgDerive_of_some hp hfmt (by rw [hd, hw]; rfl), ?_⟩
    omega

/-! ## Overlapping windows -/

/-- InZero in the words of R143. -/
theorem inZero_iff (s : State) (n : Nat) : inZero s n = true ↔ s.zmin.toNat ≤ n ∧ n ≤ s.zmax.toNat := by
  simp [inZero]

/-- InOne in the words of R143. -/
theorem inOne_iff (s : State) (n : Nat) : inOne s n = true ↔ s.omin.toNat ≤ n ∧ n ≤ s.omax.toNat := by
  simp [inOne]

/-- The windows overlap exactly when some count lies in both, the larger of the two lower bounds if any does (R150). -/
theorem hcdOverlap_iff (s : State) : hcdOverlap s = true ↔ ∃ n, inZero s n = true ∧ inOne s n = true := by
  simp only [hcdOverlap, windowsOverlap, Bool.and_eq_true, decide_eq_true_eq, inZero_iff, inOne_iff]
  refine ⟨fun h => ⟨max s.zmin.toNat s.omin.toNat, ?_⟩, ?_⟩
  · omega
  · rintro ⟨n, hz, ho⟩
    omega

/-- An HCD configuration that CTL.START accepts has windows that do not overlap (R223). -/
theorem hcdOverlap_eq_false_of_startFault {s : State} (hm : ctrlMode s = 2) (h : startFault s = none) :
    hcdOverlap s = false := by
  unfold startFault at h
  dsimp only at h
  split_ifs at h with _ _ _ hwindow
  simpa [hm] using hwindow

/-- In HCD mode overlapping windows fail the last of the checks of CTL.START (R150, R223). -/
theorem startFault_of_hcdOverlap {s : State} (hm : ctrlMode s = 2) (hpcm : ctrlPcm s = true)
    (hd : depthLegal s = true) (ho : hcdOverlap s = true) : startFault s = some (.window, 0) := by
  simp [startFault, hm, hpcm, hd, ho]

/-- In IDLE the first check that fails is the fault of CTL.START (R223). -/
theorem exec_ctlStart_of_startFault {s : State} {c : FaultCode} {info : Half} (hp : s.phase = .idle)
    (h : startFault s = some (c, info)) : exec .ctlStart s = .next (raiseFault c info s) := by
  simp [exec, execCtlStart, hp, h]

/-- For a positive rate the exact window of twice the frequency lies below that of the frequency: a count of both would have
4R ≤ 10·F·n ≤ 3R (R154). -/
theorem ExactWindow.lt {r f zmin zmax omin omax : Nat} (hr : 0 < r) (hz : ExactWindow r f zmin zmax)
    (ho : ExactWindow r (2 * f) omin omax) : omax < zmin := by
  by_contra hle
  have hlow : 2 * r ≤ 5 * f * omax := (hz omax).1.1 (Nat.not_lt.1 hle)
  have hhigh : 5 * (2 * f) * omax ≤ 3 * r := (ho omax).2.1 le_rfl
  have : 5 * (2 * f) * omax = 2 * (5 * f * omax) := by ring
  omega

/-- For rate 0 the exact window holds the count 0 only (R154). -/
theorem ExactWindow.eq_zero {f lo hi : Nat} (hf : 0 < f) (h : ExactWindow 0 f lo hi) : lo = 0 ∧ hi = 0 := by
  have hhi : 5 * f * hi = 0 := Nat.le_zero.1 ((h hi).2.1 le_rfl)
  exact ⟨Nat.le_zero.1 ((h 0).1.2 (Nat.zero_le _)), by simpa [hf.ne'] using hhi⟩

/-- What CFG.DERIVE KCS or MSX leaves when it does not fault: IDLE and the two exact windows (R148). -/
theorem exactWindows_of_exec_cfgDerive {s t : State} {p : BitVec 3 × Nat × Nat} (hp : s.phase = .idle)
    (hmem : p ∈ pctFormats) (h : exec (.cfgDerive p.1) s = .next t) (ht : t.phase = .idle) :
    ExactWindow s.rate.toNat p.2.1 t.zmin.toNat t.zmax.toNat ∧
      ExactWindow s.rate.toNat p.2.2 t.omin.toNat t.omax.toNat := by
  obtain ⟨hbig, hsmall⟩ := derivePercentWindowsAreExact s hp p hmem
  have hfits : ¬5 * p.2.1 * 0x10000 ≤ 3 * s.rate.toNat := by
    intro hge
    obtain rfl : raiseFault .derive 0 s = t := Host.Outcome.next.inj ((hbig hge).symm.trans h)
    simp at ht
  obtain ⟨zmin, zmax, omin, omax, he, hzero, hone⟩ := hsmall hfits
  obtain rfl := Host.Outcome.next.inj (he.symm.trans h)
  exact ⟨hzero, hone⟩

/-- Settles O22: both windows are exact, at F_Z and at 2·F_Z, so they are apart for R > 0, and for R = 0 they share the
count 0. -/
theorem percentWindowsNeverOverlap : Obligations.PercentWindowsNeverOverlap := by
  intro s t fmt hp hfmt h ht
  obtain ⟨⟨fz, fo⟩, hmem⟩ : ∃ fs, (fmt, fs) ∈ pctFormats := by
    rcases hfmt with rfl | rfl
    · exact ⟨(2400, 4800), by decide⟩
    · exact ⟨(1200, 2400), by decide⟩
  obtain ⟨hf, hfo, -⟩ := pctFormats_spec hmem
  obtain ⟨hzero, hone⟩ := exactWindows_of_exec_cfgDerive hp hmem h ht
  dsimp only at hf hfo hzero hone
  subst hfo
  refine ⟨fun hr => ?_, fun hr => ?_⟩
  · have hlt : t.omax.toNat < t.zmin.toNat :=
      ExactWindow.lt (Nat.pos_of_ne_zero fun h0 => hr (BitVec.eq_of_toNat_eq h0)) hzero hone
    exact ⟨hlt, fun ⟨n, hn⟩ => by omega⟩
  · rw [hr] at hzero hone
    obtain ⟨hzmin, hzmax⟩ := hzero.eq_zero hf
    obtain ⟨homin, homax⟩ := hone.eq_zero (by omega)
    refine ⟨BitVec.eq_of_toNat_eq hzmin, BitVec.eq_of_toNat_eq hzmax, BitVec.eq_of_toNat_eq homin,
      BitVec.eq_of_toNat_eq homax, fun hm hpcm hd => ?_⟩
    have hoverlap : hcdOverlap t = true :=
      (hcdOverlap_iff t).2 ⟨0, (inZero_iff t 0).2 (by omega), (inOne_iff t 0).2 (by omega)⟩
    exact exec_ctlStart_of_startFault ht (startFault_of_hcdOverlap hm hpcm hd hoverlap)

/-- Settles O38: the invariant keeps a run's configuration one that CTL.START accepts. -/
theorem atMostOneWindowHoldsDuringARun : Obligations.AtMostOneWindowHoldsDuringARun := by
  intro s n hinv hp hm hboth
  have hapart : hcdOverlap s = false := hcdOverlap_eq_false_of_startFault hm (hinv.block.started (.inl hp))
  exact absurd ((hcdOverlap_iff s).2 ⟨n, hboth⟩) (by simp [hapart])

/-! ## The step on a sample -/

/-- A sample accepted in HCD mode is an HCD step on its level (R152, R224). -/
theorem exec_srcSample_of_hcd {d : Half} {s : State} {l : Level} (hp : s.phase = .running) (hq : s.outq = [])
    (hm : ctrlMode s = 2) (hl : quantize d (ctrlDepth s) = some l) : exec (.srcSample d) s = .next (hcdStep l s) := by
  have hw : ¬inputWaits s = true := fun h => ((inputWaits_iff s).1 h).2 hq
  rw [exec_srcSample_of_level hw hp (.inr hm) hl, if_neg (by simp [hm])]

/-- Settles O35: the command is the step on the sample's level, by HPH and the level. -/
theorem hcdSampleStep : Obligations.HcdSampleStep := by
  intro s d l hp hq hm hl
  rw [exec_srcSample_of_hcd hp hq hm hl]
  refine ⟨fun hh hlow => ?start, fun hh hwait => ?waiting, fun hh hcount => ?count, fun hh hhigh => ?finalize⟩
  case start => rw [hlow, hcdStep_start s hh]
  case waiting => rw [hcdStep_waiting l s hh (by rcases hwait with rfl | rfl <;> simp)]
  case count =>
    rw [hcdStep_count l s hh (by rcases hcount with rfl | rfl <;> simp)]
    rfl
  case finalize => rw [hhigh, hcdStep_finalize s hh]

/-- Settles O37: `hcdStep_spec`, with the Zero window in the words of R143. -/
theorem hcdErrorOnlyBeforeAZero : Obligations.HcdErrorOnlyBeforeAZero := by
  intro l s
  obtain ⟨_, _, _, bs, hstep, hlen, -, herr⟩ := hcdStep_spec l s
  refine ⟨bs, by rw [hstep], hlen, fun hmem => ?_⟩
  obtain ⟨hbs, hpend, hhph, hhigh, hzero⟩ := herr hmem
  exact ⟨hbs, hpend, hhph, hhigh, (inZero_iff s _).1 hzero⟩

/-! ## The lookback machine -/

/-- The Zero window is tested first (R142). -/
theorem hcdClassify_of_inZero {s : State} {n : Nat} (hz : inZero s n = true) : hcdClassify n s = zeroBranch s :=
  if_pos hz

/-- The One window is tested second (R142). -/
theorem hcdClassify_of_inOne {s : State} {n : Nat} (hz : ¬inZero s n = true) (ho : inOne s n = true) :
    hcdClassify n s = oneBranch s :=
  (if_neg hz).trans (if_pos ho)

/-- A span in neither window is noise (R142). -/
theorem hcdClassify_of_noise {s : State} {n : Nat} (hz : ¬inZero s n = true) (ho : ¬inOne s n = true) :
    hcdClassify n s = noiseBranch s :=
  (if_neg hz).trans (if_neg ho)

/-- Clearing PEND when nothing is pending changes nothing. -/
theorem clear_pend_of_idle {s : State} (hp : s.pend = .idle) : { s with pend := .idle } = s := by
  rw [← hp]

/-- A Zero span emits 0 when nothing is pending (R144). -/
theorem zeroBranch_of_idle {s : State} (hp : s.pend = .idle) : zeroBranch s = { s with outq := s.outq ++ [.zero] } := by
  simp [zeroBranch, hp, emit, emitAll]

/-- A Zero span after a pending half emits ERROR, then 0 (R144). -/
theorem zeroBranch_of_pendingOne {s : State} (hp : s.pend = .pendingOne) :
    zeroBranch s = { s with outq := s.outq ++ [.error, .zero], pend := .idle } := by
  simp [zeroBranch, hp, emit, emitAll]

/-- The first One span is remembered (R145). -/
theorem oneBranch_of_idle {s : State} (hp : s.pend = .idle) : oneBranch s = { s with pend := .pendingOne } := by
  simp only [oneBranch, hp]

/-- The second One span emits 1 (R145). -/
theorem oneBranch_of_pendingOne {s : State} (hp : s.pend = .pendingOne) :
    oneBranch s = { s with outq := s.outq ++ [.one], pend := .idle } := by
  simp only [oneBranch, hp, emit, emitAll]

/-- Noise clears PEND when CTRL.NCP is 1 (R146). -/
theorem noiseBranch_of_ncp {s : State} (hn : ctrlNcp s = true) : noiseBranch s = { s with pend := .idle } :=
  if_pos hn

/-- Noise changes nothing when CTRL.NCP is 0 (R146). -/
theorem noiseBranch_of_not_ncp {s : State} (hn : ¬ctrlNcp s = true) : noiseBranch s = s :=
  if_neg hn

/-- Noise changes nothing when nothing is pending, whatever CTRL.NCP is (R146, R151). -/
theorem noiseBranch_of_idle {s : State} (hp : s.pend = .idle) : noiseBranch s = s := by
  by_cases hn : ctrlNcp s = true
  · rw [noiseBranch_of_ncp hn, clear_pend_of_idle hp]
  · exact noiseBranch_of_not_ncp hn

/-- Settles O36: the window picks the branch, and PEND and CTRL.NCP pick the branch's cell. -/
theorem lookbackMachineFollowsItsTable : Obligations.LookbackMachineFollowsItsTable := by
  intro s n zero one
  rw [show zero ↔ inZero s n = true from (inZero_iff s n).symm, show one ↔ inOne s n = true from (inOne_iff s n).symm]
  refine ⟨fun hp => ⟨fun hz => ?_, fun hz ho => ?_, fun hz ho => ?_⟩,
    fun hp => ⟨fun hz => ?_, fun hz ho => ?_, fun hz ho hn => ?_, fun hz ho hn => ?_⟩⟩
  · rw [hcdClassify_of_inZero hz, zeroBranch_of_idle hp]
  · rw [hcdClassify_of_inOne hz ho, oneBranch_of_idle hp]
  · rw [hcdClassify_of_noise hz ho, noiseBranch_of_idle hp]
  · rw [hcdClassify_of_inZero hz, zeroBranch_of_pendingOne hp]
  · rw [hcdClassify_of_inOne hz ho, oneBranch_of_pendingOne hp]
  · rw [hcdClassify_of_noise hz ho, noiseBranch_of_not_ncp (by simp [hn])]
  · rw [hcdClassify_of_noise hz ho, noiseBranch_of_ncp hn]

end Sys2Proof.Machine
end

section
/-! PROOFS. The timer-pulse demodulator: the byte step of SRC.BYTE in TPD mode, the class of a cell, the attempt on a full window, and
the mirrored run under CTRL.REV = 1. -/

namespace Sys2Proof.Machine

/-! ## The byte step -/

/-- A byte accepted in TPD mode is the byte step (R171). -/
theorem exec_srcByte_of_tpd {s : State} (hp : s.phase = .running) (hm : ctrlMode s = 3) (hq : s.outq = []) (b : Byte) :
    exec (.srcByte b) s = .next (tpdByte b s) := by
  simp [exec, execSrcByte, inputWaits, hp, hm, hq]

/-- Inside the header, the byte at an index of the header's list is the one the byte step expects there (R173). -/
theorem t77Header_getElem?_eq_some_iff {i : Nat} (hi : i < 18) (b : Byte) :
    t77Header[i]? = some b ↔ b = headerByte i := by
  have hin : i < t77Header.length := hi
  rw [headerByte, List.getD_eq_getElem _ _ hin, List.getElem?_eq_getElem hin, Option.some_inj, eq_comm]

/-- The header byte expected advances HIDX (R172). -/
theorem tpdByte_of_header {b : Byte} {s : State} (hi : s.hidx < 18) (hb : b = headerByte s.hidx) :
    tpdByte b s = { s with hidx := s.hidx + 1 } :=
  (if_pos hi).trans (if_neg (not_not.2 hb))

/-- Another byte in the header faults, HIDX kept (R172). -/
theorem tpdByte_of_header_mismatch {b : Byte} {s : State} (hi : s.hidx < 18) (hb : b ≠ headerByte s.hidx) :
    tpdByte b s = raiseFault (if s.hidx = 15 then .version else .magic) (BitVec.ofNat 16 s.hidx) s :=
  (if_pos hi).trans (if_pos hb)

/-- Past the header the first byte of a value is kept (R172). -/
theorem tpdByte_of_high_byte (b : Byte) {s : State} (hi : 18 ≤ s.hidx) (hv : s.hbValid = false) :
    tpdByte b s = { s with hb := b, hbValid := true } :=
  (if_neg (Nat.not_lt.2 hi)).trans (if_pos hv)

/-- Past the header the second byte of a value completes it, big-endian (R172). -/
theorem tpdByte_of_low_byte (b : Byte) {s : State} (hi : 18 ≤ s.hidx) (hv : s.hbValid = true) :
    tpdByte b s = tpdValue (joinValue s.hb b) { s with hbValid := false } :=
  (if_neg (Nat.not_lt.2 hi)).trans (if_neg (by simp [hv]))

/-- A fault leaves nothing staged when the block is not faulted already (R262). -/
theorem raiseFault_outq (c : FaultCode) (info : Half) {s : State} (h : s.phase ≠ .faulted) :
    (raiseFault c info s).outq = [] := by
  rw [raiseFault_of_not_faulted c info h]

/-- A header byte emits nothing, whether it is the one expected or not (R172). -/
theorem tpdByte_outq_of_header (b : Byte) {s : State} (hp : s.phase = .running) (hq : s.outq = []) (hi : s.hidx < 18) :
    (tpdByte b s).outq = [] := by
  by_cases hb : b = headerByte s.hidx
  · rw [tpdByte_of_header hi hb, hq]
  · rw [tpdByte_of_header_mismatch hi hb, raiseFault_outq _ _ (by simp [hp])]

/-- Settles O39: the command is the byte step, by the place in the header, the byte expected there, and HB_VALID. -/
theorem byteStepChecksTheHeaderThenPairs : Obligations.ByteStepChecksTheHeaderThenPairs := by
  unfold Obligations.ByteStepChecksTheHeaderThenPairs
  intro hdr
  have hheader : t77Header = hdr := rfl
  refine ⟨hheader, fun s b hp hm hq => ?_⟩
  rw [← hheader, exec_srcByte_of_tpd hp hm hq]
  refine ⟨fun hi hb => ?expected, fun hi hb h15 => ?version, fun hi hb h15 => ?magic, fun t hi ht => ?silent,
    fun hi hv => ?high, fun hi hv => ?low⟩
  case expected => rw [tpdByte_of_header hi ((t77Header_getElem?_eq_some_iff hi b).1 hb)]
  case version =>
    rw [tpdByte_of_header_mismatch hi (mt (t77Header_getElem?_eq_some_iff hi b).2 hb), if_pos h15, h15]
    rfl
  case magic => rw [tpdByte_of_header_mismatch hi (mt (t77Header_getElem?_eq_some_iff hi b).2 hb), if_neg h15]
  case silent =>
    cases ht
    exact tpdByte_outq_of_header b hp hq hi
  case high => rw [tpdByte_of_high_byte b hi hv]
  case low =>
    rw [tpdByte_of_low_byte b hi hv]
    rfl

/-! ## The class of a cell -/

/-- The magnitude as a number (R174). -/
theorem magnitude_eq_mod (v : Half) : magnitude v = v.toNat % 0x8000 := by
  simp [magnitude]

/-- A window of R176 in its own words. -/
theorem withinMargin_iff (t m : Half) (d : Nat) :
    withinMargin t m d = true ↔ (t.toNat : Int) - m.toNat ≤ d ∧ (d : Int) ≤ t.toNat + m.toNat := by
  simp [withinMargin]

/-- The long window is tested first (R176). -/
theorem cellClass_of_long {s : State} {c : Half × Half}
    (hl : withinMargin s.tlong s.tmargin (magnitude c.1 + magnitude c.2) = true) : cellClass s c = some .one :=
  if_pos hl

/-- The short window is tested second (R176). -/
theorem cellClass_of_short {s : State} {c : Half × Half}
    (hl : ¬withinMargin s.tlong s.tmargin (magnitude c.1 + magnitude c.2) = true)
    (hs : withinMargin s.tshort s.tmargin (magnitude c.1 + magnitude c.2) = true) : cellClass s c = some .zero :=
  (if_neg hl).trans (if_pos hs)

/-- A sum in neither window has no class (R176). -/
theorem cellClass_of_neither {s : State} {c : Half × Half}
    (hl : ¬withinMargin s.tlong s.tmargin (magnitude c.1 + magnitude c.2) = true)
    (hs : ¬withinMargin s.tshort s.tmargin (magnitude c.1 + magnitude c.2) = true) : cellClass s c = none :=
  (if_neg hl).trans (if_neg hs)

/-- Settles O40: the windows are those of `cellClass`, and it tests them in the statement's order. -/
theorem cellClassByTheSumOfMagnitudes : Obligations.CellClassByTheSumOfMagnitudes := by
  intro s x y d long short
  have hlong : long ↔ withinMargin s.tlong s.tmargin (magnitude x + magnitude y) = true := by
    rw [magnitude_eq_mod, magnitude_eq_mod]
    exact (withinMargin_iff _ _ _).symm
  have hshort : short ↔ withinMargin s.tshort s.tmargin (magnitude x + magnitude y) = true := by
    rw [magnitude_eq_mod, magnitude_eq_mod]
    exact (withinMargin_iff _ _ _).symm
  exact ⟨fun hl => cellClass_of_long (hlong.1 hl),
    fun hl hs => cellClass_of_short (mt hlong.2 hl) (hshort.1 hs),
    fun hl hs => cellClass_of_neither (mt hlong.2 hl) (mt hshort.2 hs)⟩

/-! ## The attempt on a full window -/

/-- Cells that keep their classes, one by one, keep them together (R175). -/
theorem cellClasses_map {s s' : State} {f : Half × Half → Half × Half} (h : ∀ c, cellClass s' (f c) = cellClass s c)
    (cs : List (Half × Half)) : cellClasses s' (cs.map f) = cellClasses s cs := by
  induction cs with
  | nil => rfl
  | cons c rest ih => rw [List.map_cons, cellClasses, cellClasses, h, ih]

/-- The outcome of an attempt on a window does not depend on the window the state holds (R175). -/
theorem attemptOn_with_w (s : State) (w win : List Half) : attemptOn { s with w := w } win = attemptOn s win := by
  have hclasses := cellClasses_map (s := s) (s' := { s with w := w }) (f := id) (fun _ => rfl) (cellsOf win)
  rw [List.map_id] at hclasses
  unfold attemptOn
  rw [hclasses]
  rfl

/-- A cell of the wrong polarity decides first (R177). -/
theorem attemptOn_of_not_polar {s : State} {win : List Half} (hp : ¬polarityOk (ctrlRev s) win = true) :
    attemptOn s win = .slideHalf :=
  if_neg hp

/-- A cell without a class decides second (R176). -/
theorem attemptOn_of_no_class {s : State} {win : List Half} (hp : polarityOk (ctrlRev s) win = true)
    (hc : cellClasses s (cellsOf win) = none) : attemptOn s win = .slideFull := by
  rw [attemptOn, if_pos hp, hc]

/-- The markers decide last (R178). -/
theorem attemptOn_of_classes {s : State} {win : List Half} {bits : List BitCode}
    (hp : polarityOk (ctrlRev s) win = true) (hc : cellClasses s (cellsOf win) = some bits) :
    attemptOn s win = if markersOk bits then .frame bits else .slideFull := by
  rw [attemptOn, if_pos hp, hc]

/-- The markers in the words of R178. -/
theorem markersOk_iff (bits : List BitCode) : markersOk bits = true ↔
    bits.getD 0 .error = .zero ∧ bits.getD 9 .error = .one ∧ bits.getD 10 .error = .one := by
  have read (i : Nat) {b : BitCode} (hb : b ≠ .error) : bits.getD i .error = b ↔ bits[i]? = some b := by
    rw [List.getD_eq_getElem?_getD]
    cases bits[i]? <;> simp [hb.symm]
  rw [read 0 (by simp), read 9 (by simp), read 10 (by simp)]
  simp [markersOk, and_assoc]

/-- A cell of a full window without a class (R175). -/
theorem cellClasses_eq_none_of_cell {s : State} {win : List Half} (hw : win.length = 22) {i : Nat} (hi : i < 11)
    (h : cellClass s (win.getD (2 * i) 0, win.getD (2 * i + 1) 0) = none) : cellClasses s (cellsOf win) = none :=
  (cellClasses_eq_none_iff s _).2 ⟨_, List.mem_of_getElem? (cellsOf_getElem? 11 win hw i hi), h⟩

/-- The classes of a full window, read cell by cell (R175). -/
theorem cellClasses_eq_some_of_cells {s : State} {win : List Half} {bits : List BitCode} (hw : win.length = 22)
    (hb : bits.length = 11)
    (h : ∀ i < 11, cellClass s (win.getD (2 * i) 0, win.getD (2 * i + 1) 0) = some (bits.getD i .error)) :
    cellClasses s (cellsOf win) = some bits := by
  have hcells : (cellsOf win).length = 11 := cellsOf_length 11 win hw
  rw [cellClasses_eq_some_iff]
  refine List.ext_getElem (by simp [hcells, hb]) fun i hi _ => ?_
  rw [List.length_map, hcells] at hi
  obtain ⟨_, hcell⟩ := List.getElem?_eq_some_iff.1 (cellsOf_getElem? 11 win hw i hi)
  rw [List.getElem_map, List.getElem_map, hcell, h i hi, List.getD_eq_getElem]

/-- A value that does not fill the window is appended (R175). -/
theorem tpdValue_of_not_full (v : Half) {s : State} (h : s.w.length ≠ 21) : tpdValue v s = { s with w := s.w ++ [v] } :=
  if_neg (by simpa using h)

/-- What an attempt that came out as `a` makes of a state whose window is `win` (R175). -/
def State.afterAttempt (s : State) (win : List Half) : Attempt → State
  | .slideHalf => { s with w := win.drop 1 }
  | .slideFull => { s with w := win.drop 2 }
  | .frame bits => { s with w := [], outq := s.outq ++ bits }

/-- An attempt acts by its outcome (R175). -/
theorem tpdAttempt_eq_afterAttempt (s : State) : tpdAttempt s = s.afterAttempt s.w (attemptOn s s.w) := by
  unfold tpdAttempt
  cases attemptOn s s.w <;> rfl

/-- The value that fills the window triggers an attempt (R175). -/
theorem tpdValue_of_full (v : Half) {s : State} (h : s.w.length = 21) :
    tpdValue v s = s.afterAttempt (s.w ++ [v]) (attemptOn s (s.w ++ [v])) := by
  have attempted : tpdValue v s = tpdAttempt { s with w := s.w ++ [v] } := if_pos (by simpa using h)
  rw [attempted, tpdAttempt_eq_afterAttempt, attemptOn_with_w]
  cases attemptOn s (s.w ++ [v]) <;> rfl

/-- Settles O41: the polarity, then the classes, then the markers decide the outcome of the attempt. -/
theorem windowAttemptDecidesTheFrame : Obligations.WindowAttemptDecidesTheFrame := by
  intro s v win x y polar
  refine ⟨tpdValue_of_not_full v, fun h => ?_⟩
  have hw : win.length = 22 := by simp [win, h]
  have hpolar : polar ↔ polarityOk (ctrlRev s) win = true := (polarityOk_iff (ctrlRev s) win hw).symm
  rw [tpdValue_of_full v h, hpolar]
  refine ⟨fun hp => ?polarity, fun hp ⟨i, hi, hc⟩ => ?unclassified, fun bits hp hl hc => ?classified⟩
  case polarity => rw [attemptOn_of_not_polar hp]; rfl
  case unclassified => rw [attemptOn_of_no_class hp (cellClasses_eq_none_of_cell hw hi hc)]; rfl
  case classified =>
    rw [attemptOn_of_classes hp (cellClasses_eq_some_of_cells hw hl hc), ← markersOk_iff]
    exact ⟨fun hm => by rw [if_pos hm]; rfl, fun hm => by rw [if_neg hm]; rfl⟩

/-- Settles O42: `tpdAttempt_spec`. -/
theorem resynchronisationAlwaysAdvances : Obligations.ResynchronisationAlwaysAdvances :=
  tpdAttempt_spec

/-! ## The mirrored run -/

/-- The state `s` with REV = 1, every value of the window inverted, and `hb` for HB (R182). -/
def State.mirrored (s : State) (hb : Byte) : State :=
  { s with ctrl := s.ctrl ||| 0x0010#16, w := s.w.map invertValue, hb := hb }

/-- A mirror is the mirrored state, whose HB is inverted when it is valid (R182). -/
theorem mirror_iff (s t : State) :
    Mirror s t ↔ ctrlRev s = false ∧ t = s.mirrored t.hb ∧ (s.hbValid = true → t.hb = s.hb ^^^ 0x80#8) :=
  Iff.rfl

/-- The mirrored run has REV = 1 (R182). -/
theorem ctrlRev_mirrored (s : State) (hb : Byte) : ctrlRev (s.mirrored hb) = true := by
  simp [ctrlRev, State.mirrored]

/-- The mirrored run is in the same mode (R182). -/
theorem ctrlMode_mirrored (s : State) (hb : Byte) : ctrlMode (s.mirrored hb) = ctrlMode s := by
  have hbits : (s.ctrl ||| 0x0010#16).extractLsb' 0 3 = s.ctrl.extractLsb' 0 3 := by
    ext i hi
    interval_cases i <;> simp
  exact congrArg BitVec.toNat hbits

/-- Inverted values pass the polarity check of REV = 1 exactly when the values pass that of REV = 0 (R182). -/
theorem polarityOk_map_invertValue (win : List Half) :
    polarityOk true (win.map invertValue) = polarityOk false win := by
  simp [polarityOk, cellsOf_map, List.all_map, Function.comp_def]

/-- A cell of inverted values has the class of the cell (R182). -/
theorem cellClass_mirrored (s : State) (hb : Byte) (c : Half × Half) :
    cellClass (s.mirrored hb) (invertValue c.1, invertValue c.2) = cellClass s c := by
  simp only [cellClass, magnitude_invertValue]
  rfl

/-- The mirrored attempt has the same outcome (R182). -/
theorem attemptOn_mirrored {s : State} (hr : ctrlRev s = false) (hb : Byte) (win : List Half) :
    attemptOn (s.mirrored hb) (win.map invertValue) = attemptOn s win := by
  unfold attemptOn
  rw [ctrlRev_mirrored, polarityOk_map_invertValue, cellsOf_map, cellClasses_map (cellClass_mirrored s hb), hr]

/-- What an attempt makes of the mirrored state mirrors what it makes of the state (R182). -/
theorem afterAttempt_mirrored (s : State) (hb : Byte) (win : List Half) (a : Attempt) :
    (s.mirrored hb).afterAttempt (win.map invertValue) a = (s.afterAttempt win a).mirrored hb := by
  cases a <;> simp [State.afterAttempt, State.mirrored]

/-- The inverted value in the mirrored run does what the value does in the run (R182). -/
theorem tpdValue_mirrored {s : State} (hr : ctrlRev s = false) (hb : Byte) (v : Half) :
    tpdValue (invertValue v) (s.mirrored hb) = (tpdValue v s).mirrored hb := by
  have hlen : (s.mirrored hb).w.length = s.w.length := List.length_map _
  have hwin : (s.mirrored hb).w ++ [invertValue v] = (s.w ++ [v]).map invertValue := by simp [State.mirrored]
  by_cases h : s.w.length = 21
  · rw [tpdValue_of_full v h, tpdValue_of_full _ (hlen.trans h), hwin, attemptOn_mirrored hr, afterAttempt_mirrored]
  · rw [tpdValue_of_not_full v h, tpdValue_of_not_full _ (hlen ▸ h), hwin]
    rfl

/-- A value leaves CTRL and the half value (R175). -/
theorem tpdValue_frame (v : Half) (s : State) :
    (tpdValue v s).ctrl = s.ctrl ∧ (tpdValue v s).hbValid = s.hbValid ∧ (tpdValue v s).hb = s.hb := by
  obtain ⟨win, bs, e, -⟩ := tpdValue_spec v s
  rw [e]
  exact ⟨rfl, rfl, rfl⟩

/-- A value and its inversion take a run and its mirror to a run and its mirror (R182). -/
theorem Mirror.tpdValue {s s' : State} (h : Mirror s s') (v : Half) :
    Mirror (tpdValue v s) (tpdValue (invertValue v) s') := by
  obtain ⟨hr, hs, hhb⟩ := (mirror_iff s s').1 h
  obtain ⟨hctrl, hvalid, hbyte⟩ := tpdValue_frame v s
  rw [hs, tpdValue_mirrored hr]
  refine ⟨?_, rfl, fun hv => ?_⟩
  · rw [ctrlRev, hctrl]
    exact hr
  · rw [hbyte]
    exact hhb (hvalid ▸ hv)

/-- A value stream and its inversion take a run and its mirror to a run and its mirror (R182). -/
theorem Mirror.foldl_tpdValue {s s' : State} (h : Mirror s s') (vs : List Half) :
    Mirror (vs.foldl (fun u v => Machine.tpdValue v u) s)
      ((vs.map invertValue).foldl (fun u v => Machine.tpdValue v u) s') := by
  induction vs generalizing s s' with
  | nil => exact h
  | cons v vs ih => exact ih (h.tpdValue v)

/-- A mirror stages the same bits (R182). -/
theorem Mirror.outq_eq {s s' : State} (h : Mirror s s') : s.outq = s'.outq := by
  obtain ⟨-, hs, -⟩ := h
  rw [hs]

/-- The same fault takes a run and its mirror to a run and its mirror (R182). -/
theorem Mirror.raiseFault {s s' : State} (h : Mirror s s') (hp : s.phase ≠ .faulted) (c : FaultCode) (info : Half) :
    Mirror (raiseFault c info s) (raiseFault c info s') := by
  obtain ⟨hr, hs, hhb⟩ := (mirror_iff s s').1 h
  rw [hs, raiseFault_of_not_faulted c info hp, raiseFault_of_not_faulted c info (s := s.mirrored s'.hb) hp]
  exact ⟨hr, rfl, hhb⟩

/-- A byte and its mirror take a run and its mirror to a run and its mirror (R182). -/
theorem Mirror.tpdByte {s s' : State} (h : Mirror s s') (hp : s.phase ≠ .faulted) (b : Byte) :
    Mirror (tpdByte b s) (tpdByte (mirrorByte s b) s') := by
  obtain ⟨hr, hs, hhb⟩ := (mirror_iff s s').1 h
  have hidx : s'.hidx = s.hidx := by rw [hs]; rfl
  have hvalid : s'.hbValid = s.hbValid := by rw [hs]; rfl
  by_cases hi : s.hidx < 18
  · have hbyte : mirrorByte s b = b := if_neg fun ⟨h18, _⟩ => Nat.not_le.2 hi h18
    rw [hbyte]
    by_cases hb : b = headerByte s.hidx
    · rw [tpdByte_of_header hi hb, tpdByte_of_header (hidx ▸ hi) (hidx ▸ hb), hs]
      exact ⟨hr, rfl, hhb⟩
    · rw [tpdByte_of_header_mismatch hi hb, tpdByte_of_header_mismatch (hidx ▸ hi) (hidx ▸ hb), hidx]
      exact h.raiseFault hp _ _
  · have hi : 18 ≤ s.hidx := Nat.not_lt.1 hi
    have hi' : 18 ≤ s'.hidx := hidx ▸ hi
    cases hv : s.hbValid with
    | false =>
      have hbyte : mirrorByte s b = b ^^^ 0x80#8 := if_pos ⟨hi, hv⟩
      rw [hbyte, tpdByte_of_high_byte b hi hv, tpdByte_of_high_byte _ hi' (hvalid.trans hv), hs]
      exact ⟨hr, rfl, fun _ => rfl⟩
    | true =>
      have hbyte : mirrorByte s b = b := if_neg fun ⟨_, hf⟩ => by simp [hv] at hf
      have halved : Mirror { s with hbValid := false } { s' with hbValid := false } := by
        rw [hs]
        exact ⟨hr, rfl, by simp⟩
      have hvalue : joinValue s'.hb b = invertValue (joinValue s.hb b) := by rw [hhb hv, joinValue_invert]
      rw [hbyte, tpdByte_of_low_byte b hi hv, tpdByte_of_low_byte b hi' (hvalid.trans hv), hvalue]
      exact halved.tpdValue _

/-- Settles O43: values and bytes keep `Mirror`, and a mirror stages the same bits. -/
theorem polarityInversionDecodesIdentically : Obligations.PolarityInversionDecodesIdentically := by
  refine ⟨fun s s' vs h => (h.foldl_tpdValue vs).outq_eq, fun s s' t b h hp hm hq e => ?_⟩
  obtain ⟨-, hs, -⟩ := (mirror_iff s s').1 h
  have hp' : s'.phase = .running := by rw [hs]; exact hp
  have hm' : ctrlMode s' = 3 := by rw [hs, ctrlMode_mirrored, hm]
  rw [exec_srcByte_of_tpd hp hm hq] at e
  cases e
  exact ⟨_, exec_srcByte_of_tpd hp' hm' (h.outq_eq ▸ hq) _, h.tpdByte (by simp [hp]) b⟩

end Sys2Proof.Machine
end

section
/-! PROOFS. The bit channel (R200 to R207): what a step can do to it, said once (`ChannelMove`), and what follows of its invariants
and of the bits delivered. -/

namespace Sys2Proof.Machine

/-! ## The channel of a state -/

/-- `t` has the phase and the channel of `s`, and has delivered the same bits (R200). -/
def sameChannel (s t : State) : Prop :=
  t.phase = s.phase ∧ t.outq = s.outq ∧ t.slotFull = s.slotFull ∧ t.slotVal = s.slotVal ∧ t.closed = s.closed ∧
    delivered t = delivered s

/-- A state has its own channel. -/
theorem sameChannel_refl (s : State) : sameChannel s s :=
  ⟨rfl, rfl, rfl, rfl, rfl, rfl⟩

/-- Delivered bits are read from the responses. -/
theorem delivered_congr {s t : State} (h : t.responses = s.responses) : delivered t = delivered s := by
  rw [delivered, h, delivered]

/-- The channel is block state, and the bits delivered are among the responses. -/
theorem sameChannel_of_sameBlock {s t : State} (h : sameBlock s t) (hr : t.responses = s.responses) : sameChannel s t := by
  have hd := delivered_congr hr
  rw [h] at hd ⊢
  exact ⟨rfl, rfl, rfl, rfl, rfl, hd⟩

/-- Taking a word from a port leaves the channel. -/
theorem taken_sameChannel (s : State) (p : Port) (ws : List Word) : sameChannel s (taken s p ws) :=
  sameChannel_of_sameBlock (taken_sameBlock s p ws) (by simp)

/-- A waiting command leaves the channel (R13). -/
theorem wait_sameChannel (i : Instr) (s : State) : sameChannel s (wait i s) :=
  sameChannel_of_sameBlock (wait_sameBlock i s) (by simp)

/-- Delivering a bit appends it to those delivered (R70). -/
theorem delivered_respond_bit (b : BitCode) (s : State) : delivered (respond (.bit b) s) = delivered s ++ [b] := by
  simp [delivered]

/-- A response that is no bit leaves the channel. -/
theorem respond_sameChannel {r : Response} (h : ∀ b, r ≠ .bit b) (s : State) : sameChannel s (respond r s) := by
  refine ⟨rfl, rfl, rfl, rfl, rfl, ?_⟩
  cases r with
  | bit b => exact absurd rfl (h b)
  | value | level | eos | fault => simp [delivered]

/-- A register write leaves the channel (R230). -/
theorem writeReg_sameChannel (r : Reg) (d : Half) (s : State) : sameChannel s (writeReg r d s) := by
  obtain ⟨_, _, _, _, _, _, _, _, _, _, _, e, -⟩ := writeReg_spec r d s
  rw [e]
  exact sameChannel_refl s

/-- A derivation leaves the channel (R222). -/
theorem deriveState_sameChannel {f : Fmt} {s t : State} (h : deriveState f s = some t) : sameChannel s t := by
  rcases deriveState_spec h with ⟨p, rfl⟩ | ⟨w, rfl⟩ <;> exact sameChannel_refl s

/-- States with one channel have delivered the same bits. -/
theorem delivered_of_sameChannel {s t : State} (h : sameChannel s t) : delivered t = delivered s := by
  obtain ⟨-, -, -, -, -, hd⟩ := h
  exact hd

/-- States with one channel have one stream of bits. -/
theorem bitStream_of_sameChannel {s t : State} (h : sameChannel s t) : bitStream t = bitStream s := by
  obtain ⟨-, hq, hf, hv, -, hd⟩ := h
  simp only [bitStream, inSlot, hq, hf, hv, hd]

/-! ## What can happen to it -/

/-- Every way a turn leaves the channel: that of the command `i`, or, without one, the producer's or an illegal word's. -/
inductive ChannelMove (i : Option Instr) (s t : State) : Prop where
  /-- The channel stays. -/
  | stay (h : sameChannel s t)
  /-- A fault empties it (R262). -/
  | fault (c : FaultCode) (info : Half) (h : sameChannel (raiseFault c info s) t)
  /-- The run starts, or its input ends (R223, R225). -/
  | advance (p : Phase) (hs : s.phase = .idle ∨ s.phase = .running) (hp : p = .running ∨ p = .draining)
      (h : sameChannel { s with phase := p } t)
  /-- A demodulator emits into an empty OUTQ (R205). -/
  | emit (bs : List BitCode) (hp : s.phase = .running) (hq : s.outq = []) (hl : bs.length ≤ 11)
      (h : sameChannel (emitAll bs s) t)
  /-- The consumer takes the bit in the slot (R202). -/
  | take (hf : s.slotFull = true)
      (h : sameChannel { respond (.bit s.slotVal) s with slotFull := false, slotVal := .zero } t)
  /-- The producer's PUSH (R203). -/
  | push (hi : i = none) (b : BitCode) (rest : List BitCode) (hp : s.phase = .running ∨ s.phase = .draining)
      (hf : s.slotFull = false) (hq : s.outq = b :: rest)
      (h : sameChannel { s with slotVal := b, slotFull := true, outq := rest } t)
  /-- The producer's CLOSE (R204). -/
  | close (hi : i = none) (hp : s.phase = .draining) (hq : s.outq = []) (h : sameChannel (close s) t)
  /-- Reset (R227). -/
  | reset (hi : i = some .ctlReset) (h : sameChannel (resetState s) t)

/-- A T77 byte faults, or emits at most eleven bits (R172). -/
theorem tpdByte_channelMove (i : Option Instr) (b : Byte) {s : State} (hp : s.phase = .running) (hq : s.outq = []) :
    ChannelMove i s (tpdByte b s) := by
  rcases tpdByte_spec b s with ⟨c, -, e⟩ | ⟨-, e⟩ | ⟨v, hb, win, bs, -, e, hl, -⟩ <;> rw [e]
  · exact .fault c _ (sameChannel_refl _)
  · exact .stay (sameChannel_refl s)
  · exact .emit bs hp hq hl (sameChannel_refl (emitAll bs s))

/-- Every effect of a command leaves the channel as listed. -/
theorem Effect.channelMove {i : Instr} {s t : State} (h : Effect i s t) : ChannelMove (some i) s t := by
  cases h with
  | none => exact .stay (sameChannel_refl s)
  | fault c info => exact .fault c info (sameChannel_refl _)
  | faultAnswered c info => exact .fault c info (respond_sameChannel (by simp) _)
  | answer r hr => exact .stay (respond_sameChannel hr s)
  | take hi hf => exact .take hf (sameChannel_refl _)
  | inputWait => exact .stay (wait_sameChannel i s)
  | getWait => exact .stay (wait_sameChannel i s)
  | write reg d r => exact .stay (writeReg_sameChannel r d s)
  | derive f g t hi hp hd => exact .stay (deriveState_sameChannel hd)
  | start hi hp => exact .advance .running (.inl hp) (.inl rfl) (sameChannel_refl _)
  | dcd d l hi hp hq =>
    obtain ⟨r, bs, e, hl, -⟩ := dcdStep_spec l s
    rw [e]
    exact .emit bs hp hq (by omega) (sameChannel_refl (emitAll bs s))
  | hcd d l hi hp hq =>
    obtain ⟨n, h, p, bs, e, hl, -⟩ := hcdStep_spec l s
    rw [e]
    exact .emit bs hp hq (by omega) (sameChannel_refl (emitAll bs s))
  | tpd b hi hp hq => exact tpdByte_channelMove (some i) b hp hq
  | eofDcd hi hp => exact .advance .draining (.inr hp) (.inr rfl) (sameChannel_refl { s with phase := .draining })
  | eofHcd hi hp => exact .advance .draining (.inr hp) (.inr rfl) (sameChannel_refl { s with phase := .draining })
  | eofTpd hi hp => exact .advance .draining (.inr hp) (.inr rfl) (sameChannel_refl { s with phase := .draining })
  | reset hi => exact .reset (congrArg some hi) (sameChannel_refl _)

/-- The producer's turn pushes, closes, or leaves the channel. -/
theorem producerStep_channelMove (s : State) : ChannelMove none s (producerStep s) := by
  rcases producerStep_cases s with ⟨b, rest, hp, hf, hq, e⟩ | ⟨hp, hq, e⟩ | ⟨-, -, e⟩ <;> rw [e]
  · exact .push rfl b rest hp hf hq (sameChannel_refl _)
  · exact .close rfl hp hq (sameChannel_refl _)
  · exact .stay (sameChannel_refl s)

/-- An illegal word empties the channel as a fault does (R261). -/
theorem illegalWord_channelMove (i : Option Instr) (w : Word) (s : State) : ChannelMove i s (illegalWord w s) := by
  rcases illegalWord_cases w s with ⟨-, e⟩ | ⟨-, e⟩ <;> rw [e]
  · exact .fault .illegal (highHalf w) (respond_sameChannel (by simp) _)
  · exact .fault .illegal (highHalf w) (sameChannel_refl _)

/-- Spending the turn and taking the word leave the channel; what the step then does leaves it as listed. -/
theorem step_channelMove {s t : State} (h : step s = .next t) :
    ∃ u, sameChannel s u ∧ ChannelMove (nextCommand s) u t := by
  have turn : sameChannel s { s with sched := s.sched.tail } := sameChannel_refl s
  rcases step_cases h with ⟨hw, rfl⟩ | ⟨-, rfl⟩ | ⟨p, w, ws, -, -, -, rfl⟩ | ⟨p, w, ws, i, hc, -, -, he⟩
  · have hc : nextCommand s = none := by rw [nextCommand, hw, Option.bind_none]
    exact ⟨_, turn, hc ▸ producerStep_channelMove _⟩
  · exact ⟨_, turn, .stay (sameChannel_refl _)⟩
  · exact ⟨_, taken_sameChannel s p ws, illegalWord_channelMove _ w _⟩
  · exact ⟨_, taken_sameChannel s p ws, hc ▸ (exec_effect he).channelMove⟩

/-! ## The producer and the consumer -/

/-- Settles O8: the rule's condition gives the oldest staged bit its empty slot, and of what a command can do to the channel,
emitting needs an empty OUTQ and taking a full slot. -/
theorem pushMovesTheOldestStagedBit : Obligations.PushMovesTheOldestStagedBit := by
  refine ⟨pushEnabled_iff, fun s b rest he hq => ?_, fun i s t he hexec => ?_⟩
  · rw [producerStep, if_pos he, push, hq]
  · obtain ⟨-, hne, hempty⟩ := (pushEnabled_iff s).1 he
    cases (exec_effect hexec).channelMove with
    | stay h | advance _ _ _ h =>
      obtain ⟨-, hq, hf, hv, -, -⟩ := h
      exact .inl ⟨hq, hf, hv⟩
    | fault c info h => exact .inr (.inl (h.1.trans (raiseFault_phase c info s)))
    | emit _ _ hq => exact absurd hq hne
    | take hf => simp [hempty] at hf
    | push hi | close hi => cases hi
    | reset hi => exact .inr (.inr (Option.some.inj hi))

/-- Settles O9: where CLOSE is enabled OUTQ is empty, so PUSH is not. -/
theorem closeEndsTheRun : Obligations.CloseEndsTheRun := by
  refine ⟨closeEnabled_iff, fun s hc => ?_, fun s hp hc => ?_⟩
  · obtain ⟨-, hq⟩ := (closeEnabled_iff s).1 hc
    have hp : ¬pushEnabled s = true := fun he => ((pushEnabled_iff s).1 he).2.1 hq
    rw [producerStep, if_neg hp, if_pos hc, close]
  · simp [producerStep, hp, hc]

/-- Settles O47: the slot, then FAULTED, then CLOSED decide, in the rule's order. -/
theorem sinkGetTakesTheNextBit : Obligations.SinkGetTakesTheNextBit := by
  refine fun s => ⟨exec_snkGet_of_slotFull, fun hf hp => ?_, fun hf hp hc => ?_, fun hf hp hc => ?_⟩
  · simp [exec, execSnkGet, hf, hp, respond]
  · simp [exec, execSnkGet, hf, hp, hc, respond]
  · have hwait : exec .snkGet s = .next (wait .snkGet s) := by simp [exec, execSnkGet, hf, hp, hc]
    exact hwait

/-! ## Invariants -/

/-- The invariants of R201 speak of the channel alone. -/
theorem ChannelInv.of_sameChannel {s t : State} (h : ChannelInv s) (hst : sameChannel s t) : ChannelInv t := by
  obtain ⟨hp, hq, hf, hv, hc, -⟩ := hst
  constructor
  · rw [hf, hv]; exact h.slotEmpty
  · rw [hp, hf, hq]; exact h.faultedEmpty
  · rw [hp, hc]; exact h.doneClosed
  · rw [hp, hc]; exact h.closedPhase
  · rw [hp, hq]; exact h.restingEmpty
  · rw [hq]; exact h.outqBound

/-- A run may start or go on to drain: the channel of an idle or running block is not closed (R223, R225). -/
theorem ChannelInv.advance {s : State} (h : ChannelInv s) (hs : s.phase = .idle ∨ s.phase = .running) {p : Phase}
    (hp : p = .running ∨ p = .draining) : ChannelInv { s with phase := p } := by
  have hopen : ¬s.closed = true := fun hc => by
    rcases hs with hs | hs <;> simpa [hs] using h.closedPhase hc
  have hmoving : p ≠ .idle ∧ p ≠ .done ∧ p ≠ .faulted := by rcases hp with rfl | rfl <;> simp
  obtain ⟨hidle, hdone, hfaulted⟩ := hmoving
  exact
    { h with
      faultedEmpty := fun e => absurd e hfaulted
      doneClosed := fun e => absurd e hdone
      closedPhase := fun hc => absurd hc hopen
      restingEmpty := by simp [hidle, hdone, hfaulted] }

/-- Taking the bit leaves code 0 in the slot (R202). -/
theorem ChannelInv.take {s : State} (h : ChannelInv s) :
    ChannelInv { respond (.bit s.slotVal) s with slotFull := false, slotVal := .zero } :=
  { h with
    slotEmpty := fun _ => rfl
    faultedEmpty := fun hp => ⟨rfl, (h.faultedEmpty hp).2⟩ }

/-- PUSH fills the slot in a run only, and shortens OUTQ (R203). -/
theorem ChannelInv.push {s : State} (h : ChannelInv s) {b : BitCode} {rest : List BitCode}
    (hp : s.phase = .running ∨ s.phase = .draining) (hq : s.outq = b :: rest) :
    ChannelInv { s with slotVal := b, slotFull := true, outq := rest } :=
  { h with
    slotEmpty := by simp
    faultedEmpty := by rcases hp with hp | hp <;> simp [hp]
    restingEmpty := by rcases hp with hp | hp <;> simp [hp]
    outqBound := by
      have hle := h.outqBound
      rw [hq, List.length_cons] at hle
      exact Nat.le_of_succ_le hle }

/-- CLOSE closes the channel and ends the run at once, with OUTQ empty (R204). -/
theorem ChannelInv.close {s : State} (h : ChannelInv s) (hq : s.outq = []) : ChannelInv (close s) :=
  { h with
    faultedEmpty := by simp
    doneClosed := fun _ => rfl
    closedPhase := fun _ => .inl rfl
    restingEmpty := fun _ => hq }

/-- What a turn can do to the channel keeps its invariants. -/
theorem ChannelInv.move {i : Option Instr} {s t : State} (h : ChannelInv s) (hm : ChannelMove i s t) : ChannelInv t := by
  cases hm with
  | stay hst => exact h.of_sameChannel hst
  | fault c info hst => exact (h.raiseFault c info).of_sameChannel hst
  | advance p hs hp hst => exact (h.advance hs hp).of_sameChannel hst
  | emit bs hp hq hl hst => exact (h.emit hp hq hl).of_sameChannel hst
  | take hf hst => exact h.take.of_sameChannel hst
  | push hi b rest hp hf hq hst => exact (h.push hp hq).of_sameChannel hst
  | close hi hp hq hst => exact (h.close hq).of_sameChannel hst
  | reset hi hst => exact (resetHasTheInvariant.of_sameBlock (resetState_sameBlock s)).channel.of_sameChannel hst

/-- Settles O52: the reset state has the block's invariant, of which these are part, and a step moves the channel as listed. -/
theorem stepKeepsTheChannelInvariants : Obligations.StepKeepsTheChannelInvariants := by
  refine ⟨resetHasTheInvariant.channel, fun s t h hstep => ?_⟩
  obtain ⟨u, hu, hm⟩ := step_channelMove hstep
  exact (h.of_sameChannel hu).move hm

/-! ## Delivery -/

/-- `t` has delivered what `s` has, and of what was on its way at most the oldest bit (R206). -/
def DeliversInOrder (s t : State) : Prop :=
  delivered s <+: delivered t ∧ delivered t <+: bitStream s ∧ (delivered t).length ≤ (delivered s).length + 1

/-- Delivering nothing is delivery in order. -/
theorem deliversInOrder_of_eq {s t : State} (h : delivered t = delivered s) : DeliversInOrder s t := by
  rw [DeliversInOrder, h, bitStream, List.append_assoc]
  exact ⟨List.prefix_rfl, List.prefix_append .., Nat.le_succ _⟩

/-- The bit in the slot is the oldest on its way. -/
theorem deliversInOrder_of_take {s t : State} (hf : s.slotFull = true) (h : delivered t = delivered s ++ [s.slotVal]) :
    DeliversInOrder s t := by
  have hstream : bitStream s = delivered t ++ s.outq := by simp [bitStream, inSlot, hf, h]
  rw [DeliversInOrder, hstream, h]
  exact ⟨List.prefix_append .., List.prefix_append .., by simp⟩

/-- What is not yet delivered is lost, by a fault or by a reset (R207). -/
def Discards (i : Option Instr) (s t : State) : Prop :=
  bitStream t = delivered s ∧ (t.phase = .faulted ∨ i = some .ctlReset)

/-- A fault discards what is not delivered, or, in FAULTED, changes nothing (R262). -/
theorem bitStream_raiseFault (c : FaultCode) (info : Half) (s : State) :
    bitStream (raiseFault c info s) = bitStream s ∨ bitStream (raiseFault c info s) = delivered s := by
  by_cases hp : s.phase = .faulted
  · exact .inl (by rw [raiseFault_of_faulted c info hp])
  · refine .inr ?_
    rw [raiseFault_of_not_faulted c info hp]
    simp [bitStream, inSlot, delivered]

/-- Order of delivery and discarding are read from the channel alone. -/
theorem inOrder_of_sameChannel {i : Option Instr} {s u t : State} (h : sameChannel u t)
    (hu : DeliversInOrder s u ∧ (bitStream s <+: bitStream u ∨ Discards i s u)) :
    DeliversInOrder s t ∧ (bitStream s <+: bitStream t ∨ Discards i s t) := by
  simp only [DeliversInOrder, Discards, delivered_of_sameChannel h, bitStream_of_sameChannel h, h.1]
  exact hu

/-- What a turn can do to the channel delivers in order, and lets the stream grow at its end unless it discards. -/
theorem ChannelMove.inOrder {i : Option Instr} {s t : State} (hm : ChannelMove i s t) :
    DeliversInOrder s t ∧ (bitStream s <+: bitStream t ∨ Discards i s t) := by
  cases hm with
  | stay h | advance _ _ _ h | close _ _ _ h =>
    exact inOrder_of_sameChannel h ⟨deliversInOrder_of_eq rfl, .inl List.prefix_rfl⟩
  | fault c info h =>
    refine inOrder_of_sameChannel h ⟨deliversInOrder_of_eq (delivered_congr (by simp)), ?_⟩
    rcases bitStream_raiseFault c info s with e | e
    · exact .inl (e ▸ List.prefix_rfl)
    · exact .inr ⟨e, .inl (raiseFault_phase c info s)⟩
  | emit bs _ _ _ h =>
    exact inOrder_of_sameChannel h ⟨deliversInOrder_of_eq rfl, .inl ⟨bs, List.append_assoc ..⟩⟩
  | take hf h =>
    have hstream : bitStream { respond (.bit s.slotVal) s with slotFull := false, slotVal := .zero } = bitStream s := by
      simp [bitStream, inSlot, hf, delivered]
    exact inOrder_of_sameChannel h
      ⟨deliversInOrder_of_take hf (delivered_respond_bit s.slotVal s), .inl (hstream ▸ List.prefix_rfl)⟩
  | push _ b rest _ hf hq h =>
    have hstream : bitStream { s with slotVal := b, slotFull := true, outq := rest } = bitStream s := by
      simp [bitStream, inSlot, hf, hq, delivered]
    exact inOrder_of_sameChannel h ⟨deliversInOrder_of_eq rfl, .inl (hstream ▸ List.prefix_rfl)⟩
  | reset hi h =>
    have hstream : bitStream (resetState s) = delivered s := by
      simp [bitStream, inSlot, delivered, resetState, State.reset]
    exact inOrder_of_sameChannel h ⟨deliversInOrder_of_eq rfl, .inr ⟨hstream, .inr hi⟩⟩

/-- Settles O49: taking the turn delivers nothing, and what a turn can do to the channel delivers in order. -/
theorem bitsAreDeliveredInOrder : Obligations.BitsAreDeliveredInOrder := by
  intro s t hstep
  obtain ⟨u, hu, hm⟩ := step_channelMove hstep
  have hd : delivered u = delivered s := delivered_of_sameChannel hu
  obtain ⟨⟨hkept, holdest, hone⟩, hstream⟩ := hm.inOrder
  rw [Discards, bitStream_of_sameChannel hu] at hstream
  rw [bitStream_of_sameChannel hu] at holdest
  rw [hd] at hkept hone hstream
  exact ⟨hkept, holdest, hone, hstream⟩

end Sys2Proof.Machine
end

section
/-! PROOFS. Waiting (R13, R205): a command that waits is put back where its word was, and no other command puts a word at a port. -/

namespace Sys2Proof.Machine

/-- A port's words are read from its queue alone. -/
theorem portQueue_congr {s t : State} (p : Port) (hh : t.hostQ = s.hostQ) (hs : t.sourceQ = s.sourceQ)
    (hc : t.consumerQ = s.consumerQ) : portQueue p t = portQueue p s := by
  cases p with
  | host => exact hh
  | source => exact hs
  | consumer => exact hc

/-- A command that waits leaves its port as it was before its word was taken (R13). -/
theorem wait_setPortQueue {s : State} {p : Port} {ws : List Word} {i : Instr} (hq : portQueue p s = encode i :: ws) :
    wait i { setPortQueue p ws s with port := p } = { s with port := p } := by
  cases p <;> simp only [portQueue] at hq <;> simp [wait, setPortQueue, portQueue, ← hq]

/-- A sample or a byte waits under back-pressure, in any mode (R205). -/
theorem exec_of_inputWaits {i : Instr} {s : State} (hi : (∃ d, i = .srcSample d) ∨ ∃ b, i = .srcByte b)
    (hw : inputWaits s = true) : exec i s = .next (wait i s) := by
  rcases hi with ⟨d, rfl⟩ | ⟨b, rfl⟩
  · exact if_pos hw
  · exact if_pos hw

/-- A fault leaves every port's words (R262). -/
theorem portQueue_raiseFault (p : Port) (c : FaultCode) (info : Half) (s : State) :
    portQueue p (raiseFault c info s) = portQueue p s :=
  portQueue_congr p (by simp) (by simp) (by simp)

/-- A T77 byte leaves every port's words (R172). -/
theorem portQueue_tpdByte (p : Port) (b : Byte) (s : State) : portQueue p (tpdByte b s) = portQueue p s := by
  rcases tpdByte_spec b s with ⟨c, -, e⟩ | ⟨-, e⟩ | ⟨v, hb, win, bs, -, e, -⟩ <;> rw [e]
  · exact portQueue_raiseFault p c _ s
  · exact portQueue_congr p rfl rfl rfl
  · exact portQueue_congr p rfl rfl rfl

/-- The conditions under which a command is not enabled (R202, R205). -/
def Waits (i : Instr) (s : State) : Prop :=
  (((∃ d, i = .srcSample d) ∨ ∃ b, i = .srcByte b) ∧ s.phase = .running ∧ s.outq ≠ []) ∨
    (i = .snkGet ∧ s.slotFull = false ∧ s.phase ≠ .faulted ∧ s.closed = false)

/-- A command that is enabled leaves every port's words. -/
theorem Effect.portQueue_or_waits {i : Instr} {s t : State} (h : Effect i s t) (p : Port) :
    portQueue p t = portQueue p s ∨ Waits i s := by
  cases h with
  | inputWait hi hp hq => exact .inr (.inl ⟨hi, hp, hq⟩)
  | getWait hi hf hp hc => exact .inr (.inr ⟨hi, hf, hp, hc⟩)
  | fault c info => exact .inl (portQueue_raiseFault p c info s)
  | faultAnswered c info => exact .inl (portQueue_raiseFault p c info s)
  | write reg d r =>
    obtain ⟨_, _, _, _, _, _, _, _, _, _, _, e, -⟩ := writeReg_spec r d s
    exact .inl (e ▸ portQueue_congr p rfl rfl rfl)
  | derive f g t hi hp hd =>
    rcases deriveState_spec hd with ⟨q, rfl⟩ | ⟨w, rfl⟩ <;> exact .inl (portQueue_congr p rfl rfl rfl)
  | dcd d l =>
    obtain ⟨r, bs, e, -⟩ := dcdStep_spec l s
    exact .inl (e ▸ portQueue_congr p rfl rfl rfl)
  | hcd d l =>
    obtain ⟨n, h, q, bs, e, -⟩ := hcdStep_spec l s
    exact .inl (e ▸ portQueue_congr p rfl rfl rfl)
  | tpd b => exact .inl (portQueue_tpdByte p b s)
  | none | answer | take | start | eofDcd | eofHcd | eofTpd | reset => exact .inl (portQueue_congr p rfl rfl rfl)

/-- Settles O46: under back-pressure the input's own word goes back to the head of its port, and a command that leaves its
port otherwise than it found it is one that is not enabled. -/
theorem backPressureHoldsInputAtItsPort : Obligations.BackPressureHoldsInputAtItsPort := by
  refine ⟨fun s p turns w ws i hs hq hd hi hp hne => ?_, fun s t i p hexec hsample hbyte hget => ?_⟩
  · have hword : portQueue p { s with sched := turns } = encode i :: ws := by
      rw [portQueue_with_sched, hq, encodeInvertsDecode w i hd]
    rw [stepRunsTheDecodedCommand s p turns w ws i hs hq hd,
      exec_of_inputWaits hi ((inputWaits_iff _).2 (by simp [hp, hne])), wait_setPortQueue hword]
  · refine ((exec_effect hexec).portQueue_or_waits p).resolve_right fun hw => ?_
    rcases hw with ⟨⟨d, hi⟩ | ⟨b, hi⟩, hp, hne⟩ | ⟨hi, hf, hp, hc⟩
    · exact (hsample d hi).elim (· hp) hne
    · exact (hbyte b hi).elim (· hp) hne
    · simpa [hf, hp, hc] using hget hi

end Sys2Proof.Machine
end

section
/-! PROOFS. Register indices (R26, R221): each register has one index, from which the refusals of CFG.WRITE and CFG.READ follow. Then the
configuration commands, one equation for each branch of their rules. -/

namespace Sys2Proof.Machine

/-! ## Register indices -/

/-- The index of a register (R26). -/
def regIndex : Reg → Byte
  | .ctrl => 0x00
  | .status => 0x01
  | .fcode => 0x02
  | .finfo => 0x03
  | .rateLo => 0x04
  | .rateHi => 0x05
  | .dcdN1 => 0x06
  | .dcdN0 => 0x07
  | .hcdZmin => 0x08
  | .hcdZmax => 0x09
  | .hcdOmin => 0x0A
  | .hcdOmax => 0x0B
  | .tpdLong => 0x0C
  | .tpdShort => 0x0D
  | .tpdMargin => 0x0E
  | .qThlo => 0x0F
  | .qThhi => 0x10
  | .runLo => 0x11
  | .runHi => 0x12
  | .spanLo => 0x13
  | .spanHi => 0x14
  | .tpdPos => 0x15

/-- The 22 registers in the order of their indices (R26). -/
def registers : List Reg :=
  [.ctrl, .status, .fcode, .finfo, .rateLo, .rateHi, .dcdN1, .dcdN0, .hcdZmin, .hcdZmax, .hcdOmin, .hcdOmax, .tpdLong,
    .tpdShort, .tpdMargin, .qThlo, .qThhi, .runLo, .runHi, .spanLo, .spanHi, .tpdPos]

/-- A register's index names it. -/
@[simp] theorem regOfIndex_regIndex (r : Reg) : regOfIndex (regIndex r) = some r := by
  cases r <;> rfl

/-- Only its index names a register. -/
theorem regIndex_of_regOfIndex {i : Byte} {r : Reg} (h : regOfIndex i = some r) : i = regIndex r := by
  unfold regOfIndex at h
  split at h <;> cases h <;> exact BitVec.eq_of_toNat_eq ‹_›

/-- The indices above 0x15 are reserved (R26). -/
theorem regOfIndex_eq_none {i : Byte} (h : 0x15 < i.toNat) : regOfIndex i = none := by
  refine Option.eq_none_iff_forall_ne_some.2 fun r hr => ?_
  have hle : (regIndex r).toNat ≤ 0x15 := by cases r <;> decide
  exact absurd (regIndex_of_regOfIndex hr ▸ h) (Nat.not_lt.2 hle)

/-- A read-write register's index is one that CFG.WRITE may name (R230). -/
theorem regIndex_mem_rwIndices {r : Reg} (h : regWritable r = true) : regIndex r ∈ rwIndices := by
  revert h
  cases r <;> decide

/-- An index that CFG.WRITE may name is that of a register (R230). -/
theorem exists_rwRegOfIndex {i : Byte} (h : i ∈ rwIndices) : ∃ r, rwRegOfIndex i = some r := by
  have hall : ∀ j ∈ rwIndices, (rwRegOfIndex j).isSome = true := by decide
  exact Option.isSome_iff_exists.1 (hall i h)

/-- An index that CFG.WRITE may not name is that of no read-write register (R221). -/
theorem rwRegOfIndex_eq_none {i : Byte} (h : i ∉ rwIndices) : rwRegOfIndex i = none := by
  refine Option.eq_none_iff_forall_ne_some.2 fun r hr => h ?_
  obtain ⟨hreg, hw⟩ := Option.filter_eq_some_iff.1 hr
  exact regIndex_of_regOfIndex hreg ▸ regIndex_mem_rwIndices hw

/-! ## CFG.WRITE -/

/-- CFG.WRITE has no effect in FAULTED (R221). -/
theorem exec_cfgWrite_of_faulted (reg : Byte) (d : Half) {s : State} (hf : s.phase = .faulted) :
    exec (.cfgWrite reg d) s = .next s := if_pos hf

/-- CFG.WRITE of an index that names no read-write register faults, in IDLE and outside it (R221). -/
theorem exec_cfgWrite_of_none {reg : Byte} (d : Half) {s : State} (hf : s.phase ≠ .faulted)
    (hr : rwRegOfIndex reg = none) : exec (.cfgWrite reg d) s = .next (raiseFault .illegal (0x10#8 ++ reg) s) := by
  simp only [exec, execCfgWrite, if_neg hf, hr, cmdHigh_cfgWrite]

/-- CFG.WRITE of a read-write register is locked outside IDLE (R221). -/
theorem exec_cfgWrite_of_locked {reg : Byte} {r : Reg} (d : Half) {s : State} (hf : s.phase ≠ .faulted)
    (hp : s.phase ≠ .idle) (hr : rwRegOfIndex reg = some r) :
    exec (.cfgWrite reg d) s = .next (raiseFault .cfgLocked (0x10#8 ++ reg) s) := by
  simp only [exec, execCfgWrite, if_neg hf, hr, if_pos hp, cmdHigh_cfgWrite]

/-- CFG.WRITE of a read-write register in IDLE writes it (R221). -/
theorem exec_cfgWrite_of_idle {reg : Byte} {r : Reg} (d : Half) {s : State} (hp : s.phase = .idle)
    (hr : rwRegOfIndex reg = some r) : exec (.cfgWrite reg d) s = .next (writeReg r d s) := by
  simp [exec, execCfgWrite, hp, hr]

/-- Settles O11: each of the indices names its register, which is then written. -/
theorem configWriteStoresTheRegister : Obligations.ConfigWriteStoresTheRegister := by
  intro s d hp
  have written : ∀ reg r, rwRegOfIndex reg = some r → exec (.cfgWrite reg d) s = .next (writeReg r d s) :=
    fun _ _ => exec_cfgWrite_of_idle d hp
  exact ⟨written 0x00 .ctrl rfl, written 0x04 .rateLo rfl, written 0x05 .rateHi rfl, written 0x06 .dcdN1 rfl,
    written 0x07 .dcdN0 rfl, written 0x08 .hcdZmin rfl, written 0x09 .hcdZmax rfl, written 0x0A .hcdOmin rfl,
    written 0x0B .hcdOmax rfl, written 0x0C .tpdLong rfl, written 0x0D .tpdShort rfl, written 0x0E .tpdMargin rfl⟩

/-- Settles O12: the phase FAULTED is looked at first, then whether the index names a read-write register, then the lock. -/
theorem configWriteRefusals : Obligations.ConfigWriteRefusals := by
  refine fun s reg d => ⟨exec_cfgWrite_of_faulted reg d, fun hf hreg => ?_, fun hf hp hreg => ?_⟩
  · exact exec_cfgWrite_of_none d hf (rwRegOfIndex_eq_none hreg)
  · obtain ⟨r, hr⟩ := exists_rwRegOfIndex hreg
    exact exec_cfgWrite_of_locked d hf hp hr

/-! ## CFG.READ -/

/-- CFG.READ of a defined index responds with the register (R220). -/
theorem exec_cfgRead_of_some {reg : Byte} {r : Reg} (s : State) (hr : regOfIndex reg = some r) :
    exec (.cfgRead reg) s = .next (respond (.value (readReg r s)) s) := by
  simp only [exec, execCfgRead, hr]

/-- CFG.READ of a reserved index faults and responds FAULT (R220). -/
theorem exec_cfgRead_of_none {reg : Byte} (s : State) (hr : regOfIndex reg = none) :
    exec (.cfgRead reg) s = .next (respond .fault (raiseFault .illegal (0x20#8 ++ reg) s)) := by
  simp only [exec, execCfgRead, hr, cmdHigh_cfgRead]

/-- FCODE reads with a high half of 0 (R29). -/
theorem readReg_fcode (s : State) : readReg .fcode s = 0x00#8 ++ s.fcode :=
  BitVec.setWidth_eq_append (by decide)

/-- Settles O13: the pairs are each register's index and what the register reads. -/
theorem configReadReturnsTheRegister : Obligations.ConfigReadReturnsTheRegister := by
  intro s p hp
  rw [← readReg_fcode] at hp
  obtain ⟨r, -, rfl⟩ : ∃ r ∈ registers, (regIndex r, readReg r s) = p := List.mem_map.1 hp
  exact exec_cfgRead_of_some s (regOfIndex_regIndex r)

/-- Settles O14: a reserved index names no register, and the fault it raises changes nothing in FAULTED. -/
theorem configReadOfReservedIndexFaults : Obligations.ConfigReadOfReservedIndexFaults := by
  intro s reg h
  rw [exec_cfgRead_of_none s (regOfIndex_eq_none h)]
  refine ⟨fun hf => ?_, fun hf => ?_⟩
  · rw [raiseFault_of_not_faulted _ _ hf]
    rfl
  · rw [raiseFault_of_faulted _ _ hf]
    rfl

/-! ## CFG.DERIVE -/

/-- The codes above 4 are reserved (R88). -/
theorem fmtOfCode_eq_none : ∀ {fmt : BitVec 3}, 4 < fmt.toNat → fmtOfCode fmt = none := by decide

/-- The codes 0 to 4 name a format (R88). -/
theorem exists_fmtOfCode {fmt : BitVec 3} (h : fmt.toNat ≤ 4) : ∃ f, fmtOfCode fmt = some f := by
  have hall : ∀ g : BitVec 3, g.toNat ≤ 4 → (fmtOfCode g).isSome = true := by decide
  exact Option.isSome_iff_exists.1 (hall fmt h)

/-- CFG.DERIVE has no effect in FAULTED (R222). -/
theorem exec_cfgDerive_of_faulted (fmt : BitVec 3) {s : State} (hf : s.phase = .faulted) :
    exec (.cfgDerive fmt) s = .next s := if_pos hf

/-- CFG.DERIVE of a reserved format faults, in IDLE and outside it (R222). -/
theorem exec_cfgDerive_of_reserved {fmt : BitVec 3} {s : State} (hf : s.phase ≠ .faulted) (hfmt : fmtOfCode fmt = none) :
    exec (.cfgDerive fmt) s = .next (raiseFault .illegal (0x300#12 ++ 0#1 ++ fmt) s) := by
  simp only [exec, execCfgDerive, if_neg hf, hfmt, cmdHigh_cfgDerive]

/-- CFG.DERIVE of a defined format is locked outside IDLE (R222). -/
theorem exec_cfgDerive_of_locked {fmt : BitVec 3} {f : Fmt} {s : State} (hf : s.phase ≠ .faulted)
    (hp : s.phase ≠ .idle) (hfmt : fmtOfCode fmt = some f) :
    exec (.cfgDerive fmt) s = .next (raiseFault .cfgLocked (0x300#12 ++ 0#1 ++ fmt) s) := by
  simp only [exec, execCfgDerive, if_neg hf, hfmt, if_pos hp, cmdHigh_cfgDerive]

/-- Settles O21: the phase FAULTED is looked at first, then whether the code names a format, then the lock. -/
theorem deriveRefusals : Obligations.DeriveRefusals := by
  refine fun s fmt => ⟨exec_cfgDerive_of_faulted fmt, fun hf h => ?_, fun hf hp h => ?_⟩
  · exact exec_cfgDerive_of_reserved hf (fmtOfCode_eq_none h)
  · obtain ⟨f, hfmt⟩ := exists_fmtOfCode h
    exact exec_cfgDerive_of_locked hf hp hfmt

end Sys2Proof.Machine
end

section
/-! PROOFS. The control commands: the checks of CTL.START (R223), each in the words of its rule, and CTL.ABORT (R226). -/

namespace Sys2Proof.Machine

/-! ## The checks of CTL.START -/

/-- The legal depths (R103). -/
theorem depthLegal_iff (s : State) : depthLegal s = true ↔ ctrlDepth s = 8 ∨ ctrlDepth s = 16 := by
  simp [depthLegal]

/-- The check on the timer-pulse windows (R181). -/
theorem tpdOverlap_iff (s : State) : tpdOverlap s = true ↔
    (s.tlong.toNat : Int) - s.tmargin.toNat ≤ s.tshort.toNat + s.tmargin.toNat ∧
      (s.tshort.toNat : Int) - s.tmargin.toNat ≤ s.tlong.toNat + s.tmargin.toNat := by
  simp only [tpdOverlap, Bool.and_eq_true, decide_eq_true_eq]

/-- The timer-pulse windows overlap only where some duration lies in both, the larger of the two lower bounds (R181). -/
theorem exists_of_tpdOverlap {s : State} (h : tpdOverlap s = true) :
    ∃ d : Int, (s.tlong.toNat : Int) - s.tmargin.toNat ≤ d ∧ d ≤ s.tlong.toNat + s.tmargin.toNat ∧
      (s.tshort.toNat : Int) - s.tmargin.toNat ≤ d ∧ d ≤ s.tshort.toNat + s.tmargin.toNat := by
  rw [tpdOverlap_iff] at h
  refine ⟨max ((s.tlong.toNat : Int) - s.tmargin.toNat) (s.tshort.toNat - s.tmargin.toNat), ?_⟩
  omega

/-- The configurations that CTL.START accepts (R223). -/
theorem startFault_eq_none_iff (s : State) : startFault s = none ↔
    (ctrlMode s = 1 ∨ ctrlMode s = 2 ∨ ctrlMode s = 3) ∧
    (ctrlMode s = 1 ∨ ctrlMode s = 2 → ctrlPcm s = true ∧ depthLegal s = true) ∧
    (ctrlMode s = 2 → ¬hcdOverlap s = true) ∧ (ctrlMode s = 3 → ¬tpdOverlap s = true) := by
  unfold startFault
  dsimp only
  split_ifs <;> simp_all

/-- The first check is that of the mode (R223). -/
theorem startFault_of_mode {s : State} (hm : ctrlMode s = 0 ∨ 4 ≤ ctrlMode s) :
    startFault s = some (.mode, BitVec.ofNat 16 (ctrlMode s)) :=
  if_pos (by omega)

/-- In a sample mode the next check is that of the encoding (R104, R223). -/
theorem startFault_of_encoding {s : State} (hm : ctrlMode s = 1 ∨ ctrlMode s = 2) (hpcm : ctrlPcm s = false) :
    startFault s = some (.encoding, 0) :=
  (if_neg (by omega)).trans (if_pos ⟨hm, hpcm⟩)

/-- In a sample mode the check of the depth comes after that of the encoding (R103, R223). -/
theorem startFault_of_depth {s : State} (hm : ctrlMode s = 1 ∨ ctrlMode s = 2) (hpcm : ctrlPcm s = true)
    (hd : depthLegal s = false) : startFault s = some (.depth, BitVec.ofNat 16 (ctrlDepth s)) :=
  ((if_neg (by omega)).trans (if_neg (by simp [hpcm]))).trans (if_pos ⟨hm, hd⟩)

/-- In TPD mode overlapping windows fail the only check after that of the mode (R181, R223). -/
theorem startFault_of_tpdOverlap {s : State} (hm : ctrlMode s = 3) (ho : tpdOverlap s = true) :
    startFault s = some (.window, 0) := by
  simp [startFault, hm, ho]

/-! ## CTL.START -/

/-- CTL.START has no effect in FAULTED (R223). -/
theorem exec_ctlStart_of_faulted {s : State} (hf : s.phase = .faulted) : exec .ctlStart s = .next s := if_pos hf

/-- CTL.START outside IDLE is out of place (R223). -/
theorem exec_ctlStart_of_not_idle {s : State} (hf : s.phase ≠ .faulted) (hp : s.phase ≠ .idle) :
    exec .ctlStart s = .next (raiseFault .protocol 0x4000#16 s) := by
  simp only [exec, execCtlStart, if_neg hf, if_pos hp, cmdHigh_ctlStart]

/-- In IDLE an accepted configuration starts the run (R223). -/
theorem exec_ctlStart_of_accepted {s : State} (hp : s.phase = .idle) (h : startFault s = none) :
    exec .ctlStart s = .next { s with phase := .running } := by
  simp [exec, execCtlStart, hp, h]

/-- Settles O23: the configuration passes every check; overlapping windows would share a count or a duration. -/
theorem startBeginsTheRun : Obligations.StartBeginsTheRun := by
  intro s hp hsample hhcd htpd hm
  refine exec_ctlStart_of_accepted hp ((startFault_eq_none_iff s).2 ⟨hm, fun h => ?_, fun h ho => ?_, fun h ho => ?_⟩)
  · exact (hsample h).imp_right (depthLegal_iff s).2
  · obtain ⟨n, hz, h1⟩ := (hcdOverlap_iff s).1 ho
    exact hhcd h ⟨n, and_assoc.1 ⟨(inZero_iff s n).1 hz, (inOne_iff s n).1 h1⟩⟩
  · exact htpd h (exists_of_tpdOverlap ho)

/-- Settles O24: each clause is the check it fails, those before it having passed. -/
theorem startChecksInOrder : Obligations.StartChecksInOrder := by
  refine fun s => ⟨exec_ctlStart_of_faulted, exec_ctlStart_of_not_idle, fun hp => ?_⟩
  refine ⟨fun hm => ?mode, fun hm => ⟨fun hpcm => ?encoding, fun hpcm h8 h16 => ?depth⟩,
    fun hm hpcm hd hz ho hzo hoz => ?hcd, fun hm hls hsl => ?tpd⟩ <;>
    refine exec_ctlStart_of_startFault hp ?_
  case mode => exact startFault_of_mode hm
  case encoding => exact startFault_of_encoding hm hpcm
  case depth => exact startFault_of_depth hm hpcm (by simp [depthLegal, h8, h16])
  case hcd =>
    have hoverlap : hcdOverlap s = true := by simp [hcdOverlap, windowsOverlap, hz, ho, hzo, hoz]
    exact startFault_of_hcdOverlap hm hpcm ((depthLegal_iff s).2 hd) hoverlap
  case tpd => exact startFault_of_tpdOverlap hm ((tpdOverlap_iff s).2 ⟨hls, hsl⟩)

/-! ## CTL.ABORT -/

/-- CTL.ABORT has no effect in FAULTED (R226). -/
theorem exec_ctlAbort_of_faulted {s : State} (hf : s.phase = .faulted) : exec .ctlAbort s = .next s := if_pos hf

/-- CTL.ABORT raises its fault outside FAULTED (R226). -/
theorem exec_ctlAbort_of_not_faulted {s : State} (hf : s.phase ≠ .faulted) :
    exec .ctlAbort s = .next (raiseFault .abort 0 s) := if_neg hf

/-- Settles O26: outside FAULTED the command is the fault primitive with the code of E_ABORT. -/
theorem abortRaisesItsFault : Obligations.AbortRaisesItsFault := by
  refine ⟨rfl, fun s => ⟨fun hf => ?_, exec_ctlAbort_of_faulted⟩⟩
  rw [exec_ctlAbort_of_not_faulted hf, raiseFault_of_not_faulted _ _ hf]
  rfl

end Sys2Proof.Machine
end

section
/-! PROOFS. Input out of place (R224, R171, R225), that every command and every turn answers (R229), and that FAULTED is left by
CTL.RESET only (R228). -/

namespace Sys2Proof.Machine

/-! ## Input out of place -/

/-- Only a running block holds input back (R205). -/
theorem not_inputWaits_of_not_running {s : State} (hp : s.phase ≠ .running) : ¬inputWaits s = true :=
  fun hw => hp ((inputWaits_iff s).1 hw).1

/-- With nothing staged, input does not wait (R205). -/
theorem not_inputWaits_of_outq_nil {s : State} (hq : s.outq = []) : ¬inputWaits s = true :=
  fun hw => ((inputWaits_iff s).1 hw).2 hq

/-- A sample has no effect in FAULTED (R224). -/
theorem exec_srcSample_of_faulted (d : Half) {s : State} (hf : s.phase = .faulted) : exec (.srcSample d) s = .next s :=
  (if_neg (not_inputWaits_of_not_running (by simp [hf]))).trans (if_pos hf)

/-- A byte has no effect in FAULTED (R171). -/
theorem exec_srcByte_of_faulted (b : Byte) {s : State} (hf : s.phase = .faulted) : exec (.srcByte b) s = .next s :=
  (if_neg (not_inputWaits_of_not_running (by simp [hf]))).trans (if_pos hf)

/-- SRC.EOF has no effect in FAULTED (R225). -/
theorem exec_srcEof_of_faulted {s : State} (hf : s.phase = .faulted) : exec .srcEof s = .next s := if_pos hf

/-- A sample that does not wait faults outside the sample modes' runs (R224). -/
theorem exec_srcSample_of_out_of_place (d : Half) {s : State} (hw : ¬inputWaits s = true) (hf : s.phase ≠ .faulted)
    (hg : s.phase ≠ .running ∨ ¬(ctrlMode s = 1 ∨ ctrlMode s = 2)) :
    exec (.srcSample d) s = .next (raiseFault .protocol 0x6000#16 s) := by
  simp only [exec, execSrcSample, if_neg hw, if_neg hf, if_pos hg, cmdHigh_srcSample]

/-- A byte that does not wait faults outside a run in TPD mode (R171). -/
theorem exec_srcByte_of_out_of_place (b : Byte) {s : State} (hw : ¬inputWaits s = true) (hf : s.phase ≠ .faulted)
    (hg : s.phase ≠ .running ∨ ctrlMode s ≠ 3) :
    exec (.srcByte b) s = .next (raiseFault .protocol 0x7000#16 s) := by
  simp only [exec, execSrcByte, if_neg hw, if_neg hf, if_pos hg, cmdHigh_srcByte]

/-- SRC.EOF outside a run faults (R225). -/
theorem exec_srcEof_of_not_running {s : State} (hf : s.phase ≠ .faulted) (hp : s.phase ≠ .running) :
    exec .srcEof s = .next (raiseFault .protocol 0x8000#16 s) := by
  simp only [exec, execSrcEof, if_neg hf, if_pos hp, cmdHigh_srcEof]

/-- Settles O45: outside a run nothing waits, and in a run with nothing staged nothing does either, so the place decides. -/
theorem inputOutOfPlaceRaisesProtocol : Obligations.InputOutOfPlaceRaisesProtocol := by
  refine fun s d b => ⟨fun hf => ?faulted, fun hf hp => ?outside, fun hp hq => ?running⟩
  case faulted => exact ⟨exec_srcSample_of_faulted d hf, exec_srcByte_of_faulted b hf, exec_srcEof_of_faulted hf⟩
  case outside =>
    have hw := not_inputWaits_of_not_running hp
    exact ⟨exec_srcSample_of_out_of_place d hw hf (.inl hp), exec_srcByte_of_out_of_place b hw hf (.inl hp),
      exec_srcEof_of_not_running hf hp⟩
  case running =>
    have hw := not_inputWaits_of_outq_nil hq
    have hf : s.phase ≠ .faulted := by simp [hp]
    exact ⟨fun h1 h2 => exec_srcSample_of_out_of_place d hw hf (.inr (not_or.2 ⟨h1, h2⟩)), fun h3 =>
      exec_srcByte_of_out_of_place b hw hf (.inr h3)⟩

/-! ## Every turn answers -/

/-- A sample answers unless it is accepted by a run at an illegal depth (R103). -/
theorem exec_srcSample_answers (d : Half) {s : State} (hrun : s.phase = .running → startFault s = none) :
    ∃ t, exec (.srcSample d) s = .next t := by
  by_cases hw : inputWaits s = true
  · exact ⟨_, exec_of_inputWaits (.inl ⟨d, rfl⟩) hw⟩
  by_cases hf : s.phase = .faulted
  · exact ⟨_, exec_srcSample_of_faulted d hf⟩
  by_cases hg : s.phase ≠ .running ∨ ¬(ctrlMode s = 1 ∨ ctrlMode s = 2)
  · exact ⟨_, exec_srcSample_of_out_of_place d hw hf hg⟩
  obtain ⟨hp, hm⟩ := not_or.1 hg
  rw [not_not] at hp hm
  obtain ⟨-, hsample, -, -⟩ := (startFault_eq_none_iff s).1 (hrun hp)
  obtain ⟨l, hl⟩ := exists_level d ((depthLegal_iff s).1 (hsample hm).2)
  exact ⟨_, exec_srcSample_of_level hw hp hm hl⟩

/-- SRC.EOF answers unless it ends a run in no mode (R223, R225). -/
theorem exec_srcEof_answers {s : State} (hrun : s.phase = .running → startFault s = none) :
    ∃ t, exec .srcEof s = .next t := by
  by_cases hf : s.phase = .faulted
  · exact ⟨_, exec_srcEof_of_faulted hf⟩
  by_cases hp : s.phase = .running
  · obtain ⟨hm, -⟩ := (startFault_eq_none_iff s).1 (hrun hp)
    rcases hm with h1 | h2 | h3
    · exact ⟨_, exec_srcEof_of_dcd hp h1⟩
    · exact ⟨_, exec_srcEof_of_hcd hp h2⟩
    · by_cases hi : s.hidx < 18
      · exact ⟨_, exec_srcEof_of_header hp h3 hi⟩
      · exact ⟨_, exec_srcEof_of_tpd hp h3 hi⟩
  · exact ⟨_, exec_srcEof_of_not_running hf hp⟩

/-- Every command answers where a run has a configuration that CTL.START accepts: the other commands answer on every branch. -/
theorem exec_answers (i : Instr) {s : State} (hrun : s.phase = .running → startFault s = none) :
    ∃ t, exec i s = .next t := by
  cases i with
  | srcSample d => exact exec_srcSample_answers d hrun
  | srcEof => exact exec_srcEof_answers hrun
  | ctlReset => exact ⟨_, rfl⟩
  | cfgWrite | cfgRead | cfgDerive | ctlStart | qClassify | srcByte | snkGet | ctlAbort =>
    simp only [exec, execCfgWrite, execCfgRead, execCfgDerive, execCtlStart, execQClassify, execSrcByte, execSnkGet,
      execCtlAbort]
    repeat' split
    all_goals exact ⟨_, rfl⟩

/-- A word that spells no command is handled as such once it has left its port (R261). -/
theorem portStep_of_decodeWord_none {s : State} {p : Port} {w : Word} {ws : List Word}
    (hq : portQueue p s = w :: ws) (hd : decodeWord w = none) :
    portStep p s = .next (illegalWord w { setPortQueue p ws s with port := p }) := by
  simp only [portStep, takeWord_of_portQueue_cons hq, hd]

/-- A port's turn answers when every command does in the state with its word taken. -/
theorem portStep_answers {p : Port} {s : State}
    (hexec : ∀ i ws, ∃ t, exec i { setPortQueue p ws s with port := p } = .next t) : ∃ t, portStep p s = .next t := by
  cases hq : portQueue p s with
  | nil => exact ⟨s, by simp only [portStep, takeWord_of_portQueue_nil hq]⟩
  | cons w ws =>
    cases hd : decodeWord w with
    | none => exact ⟨_, portStep_of_decodeWord_none hq hd⟩
    | some i =>
      rw [portStep_of_decodeWord_some hq hd]
      exact hexec i ws

/-- Settles O55: spending the turn and taking the word keep the invariant, under which a run has a configuration that CTL.START
accepts. -/
theorem nothingStopsTheModel : Obligations.NothingStopsTheModel := by
  intro s h
  obtain ⟨listed, unlisted, -⟩ := stepGivesTheProducerItsTurn
  cases hs : s.sched with
  | nil => exact ⟨_, unlisted s hs⟩
  | cons a turns =>
    cases a with
    | producer => exact ⟨_, listed s turns hs⟩
    | external p =>
      rw [step_of_external_turn hs]
      refine portStep_answers fun i ws => exec_answers i fun hp => ?_
      have htaken : Inv { setPortQueue p ws { s with sched := turns } with port := p } :=
        h.of_sameBlock (by cases p <;> rfl)
      exact htaken.block.started (.inl hp)

/-! ## Out of FAULTED -/

/-- A state has its own block state. -/
theorem sameBlock_refl (s : State) : sameBlock s s := rfl

/-- Having the same block state is transitive. -/
theorem sameBlock_trans {s t u : State} (hst : sameBlock s t) (htu : sameBlock t u) : sameBlock s u := by
  unfold sameBlock at hst htu ⊢
  rw [htu, hst]

/-- In FAULTED the producer has no step (R203, R204). -/
theorem producerStep_of_faulted {s : State} (hf : s.phase = .faulted) : producerStep s = s := by
  rcases producerStep_cases s with ⟨_, _, hp | hp, -⟩ | ⟨hp, -⟩ | ⟨-, -, e⟩
  · simp [hf] at hp
  · simp [hf] at hp
  · simp [hf] at hp
  · exact e

/-- In FAULTED an illegal word changes no block state (R261, R270). -/
theorem illegalWord_of_faulted (w : Word) {s : State} (hf : s.phase = .faulted) : sameBlock s (illegalWord w s) := by
  rcases illegalWord_cases w s with ⟨-, e⟩ | ⟨-, e⟩ <;> rw [e, raiseFault_of_faulted _ _ hf]
  · exact respond_sameBlock .fault s
  · exact sameBlock_refl s

/-- In FAULTED, with the slot empty, a command other than CTL.RESET changes no block state (R228, R270). -/
theorem Effect.sameBlock_of_faulted {i : Instr} {s t : State} (h : Effect i s t) (hf : s.phase = .faulted)
    (hslot : s.slotFull = false) (hi : i ≠ .ctlReset) : sameBlock s t := by
  cases h with
  | none => exact sameBlock_refl s
  | fault c info =>
    rw [raiseFault_of_faulted c info hf]
    exact sameBlock_refl s
  | faultAnswered c info =>
    rw [raiseFault_of_faulted c info hf]
    exact respond_sameBlock .fault s
  | answer r => exact respond_sameBlock r s
  | take _ hfull => simp [hslot] at hfull
  | getWait _ _ hp => exact absurd hf hp
  | reset hreset => exact absurd hreset hi
  | inputWait _ hp | write _ _ _ _ _ hp | derive _ _ _ _ hp | start _ hp | dcd _ _ _ hp | hcd _ _ _ hp | tpd _ _ hp
  | eofDcd _ hp | eofHcd _ hp | eofTpd _ hp => simp [hf] at hp

/-- Settles O56: in FAULTED the channel is empty, so of what a step can do only a reset changes the block. -/
theorem onlyResetLeavesFaulted : Obligations.OnlyResetLeavesFaulted := by
  refine ⟨fun s t hinv hf hstep => ?_, fun s t h => ?_⟩
  · have hslot := (hinv.faultedEmpty hf).1
    rcases step_cases hstep with ⟨hw, rfl⟩ | ⟨hw, rfl⟩ | ⟨p, w, ws, hw, -, hd, rfl⟩ | ⟨p, w, ws, i, hc, -, -, he⟩
    · rw [producerStep_of_faulted (s := { s with sched := s.sched.tail }) hf]
      exact ⟨fun _ => rfl, by simp [nextCommand, hw]⟩
    · exact ⟨fun _ => rfl, by simp [nextCommand, hw]⟩
    · refine ⟨fun _ => sameBlock_trans (taken_sameBlock s p ws) (illegalWord_of_faulted w ?_), ?_⟩
      · simp [hf]
      · simp [nextCommand, hw, hd]
    · rw [hc]
      refine ⟨fun hi => sameBlock_trans (taken_sameBlock s p ws) ?_, fun hi => ?_⟩
      · exact (exec_effect he).sameBlock_of_faulted (by simp [hf]) (by simp [hslot]) fun e => hi (congrArg some e)
      · obtain rfl := Option.some.inj hi
        cases he
        exact resetState_sameBlock _
  · cases h
    exact resetState_environment s

end Sys2Proof.Machine
end

section
/-! PROOFS. Faults (R260 to R264): what the fault primitive records, and that a command which faults does nothing else to the block. -/

namespace Sys2Proof.Machine

/-! ## The fault primitive -/

/-- Settles O25: outside FAULTED the primitive records the fault, in FAULTED it does nothing, and the codes are read off R260. -/
theorem raiseFaultRecordsTheFirstFault : Obligations.RaiseFaultRecordsTheFirstFault :=
  ⟨fun c info _ => ⟨raiseFault_of_not_faulted c info, raiseFault_of_faulted c info⟩, rfl⟩

/-- A T77 byte that ends in FAULTED has raised the fault and done nothing else (R172, R264). -/
theorem tpdByte_eq_raiseFault {b : Byte} {s : State} (hs : s.phase ≠ .faulted) (ht : (tpdByte b s).phase = .faulted) :
    ∃ c info, tpdByte b s = raiseFault c info s := by
  rcases tpdByte_spec b s with ⟨c, -, e⟩ | ⟨-, e⟩ | ⟨v, hb, win, bs, -, e, -⟩
  · exact ⟨c, _, e⟩
  · rw [e] at ht
    exact absurd ht hs
  · rw [e] at ht
    exact absurd ht hs

/-- An effect that brings a block to FAULTED is the fault primitive, with or without a response (R264). -/
theorem Effect.sameBlock_raiseFault {i : Instr} {s t : State} (h : Effect i s t) (hs : s.phase ≠ .faulted)
    (ht : t.phase = .faulted) : ∃ c info, sameBlock (raiseFault c info s) t := by
  cases h with
  | fault c info => exact ⟨c, info, sameBlock_refl _⟩
  | faultAnswered c info => exact ⟨c, info, respond_sameBlock .fault _⟩
  | tpd b =>
    obtain ⟨c, info, e⟩ := tpdByte_eq_raiseFault hs ht
    exact ⟨c, info, e ▸ sameBlock_refl _⟩
  | none | answer | take => exact absurd ht hs
  | inputWait | getWait => exact absurd ((wait_fields i s).1 ▸ ht) hs
  | write reg d r => exact absurd (writeReg_phase r d s ▸ ht) hs
  | derive f g t hi hp hd => exact absurd (deriveState_phase hd ▸ ht) hs
  | dcd d l => exact absurd (dcdStep_phase l s ▸ ht) hs
  | hcd d l => exact absurd (hcdStep_phase l s ▸ ht) hs
  | start | eofDcd | eofHcd | eofTpd | reset => exact nomatch ht

/-- Settles O59: of all the effects of a command, only the fault primitive leads to FAULTED. -/
theorem faultsArePrecise : Obligations.FaultsArePrecise :=
  fun _ _ _ h hs ht => (exec_effect h).sameBlock_raiseFault hs ht

end Sys2Proof.Machine
end

section
/-! PROOFS. A command reads the block's state alone (R273): in two states that differ in what the agents have issued and received, in
the schedule and in the port, it answers alike. -/

namespace Sys2Proof.Machine

/-! ## A block among other agents -/

/-- The block of `s` among the agents of `e`: what they have issued and received, their turns and the port are those of `e`. -/
def State.withAgents (s e : State) : State :=
  { s with
    hostQ := e.hostQ, sourceQ := e.sourceQ, consumerQ := e.consumerQ, sched := e.sched, port := e.port,
    responses := e.responses }

/-- The states with the block of `s` are `s` among other agents. -/
theorem sameBlock_iff_eq_withAgents (s t : State) : sameBlock s t ↔ t = s.withAgents t := Iff.rfl

/-- A block is the same among other agents. -/
theorem withAgents_sameBlock (s e : State) : sameBlock s (s.withAgents e) := rfl

/-- A fault depends on the block alone (R262). -/
theorem raiseFault_withAgents (c : FaultCode) (info : Half) (s e : State) :
    raiseFault c info (s.withAgents e) = (raiseFault c info s).withAgents e := by
  by_cases hf : s.phase = .faulted
  · rw [raiseFault_of_faulted c info hf, raiseFault_of_faulted c info (s := s.withAgents e) hf]
  · rw [raiseFault_of_not_faulted c info hf, raiseFault_of_not_faulted c info (s := s.withAgents e) hf]
    rfl

/-- The same fault takes the same block to the same block (R262). -/
theorem raiseFault_sameBlock {s t : State} (h : sameBlock s t) (c : FaultCode) (info : Half) :
    sameBlock (raiseFault c info s) (raiseFault c info t) := by
  rw [(sameBlock_iff_eq_withAgents s t).1 h, raiseFault_withAgents]
  exact withAgents_sameBlock _ t

/-- A register write depends on the block alone (R230). -/
theorem writeReg_withAgents (r : Reg) (d : Half) (s e : State) :
    writeReg r d (s.withAgents e) = (writeReg r d s).withAgents e := by
  cases r <;> rfl

/-- A derivation depends on the block alone (R222). -/
theorem deriveState_withAgents (f : Fmt) (s e : State) :
    deriveState f (s.withAgents e) = (deriveState f s).map (·.withAgents e) := by
  cases f <;> simp only [deriveState, Option.map_map] <;> rfl

/-! ## Answering alike -/

/-- Two outcomes that leave the same block state, or stop the model for the same reason. -/
inductive Alike : Host.Outcome State Fault Refusal → Host.Outcome State Fault Refusal → Prop where
  | next {t t' : State} (h : sameBlock t t') : Alike (.next t) (.next t')
  | stop (r : Fault) : Alike (.fault r) (.fault r)

/-- What is alike to an answer is an answer. -/
theorem Alike.exists_next {t : State} {o : Host.Outcome State Fault Refusal} (h : Alike (.next t) o) :
    ∃ t', o = .next t' ∧ sameBlock t t' := by
  cases h with
  | next h => exact ⟨_, rfl, h⟩

/-- A test of the block's state keeps outcomes alike when both its branches do. -/
theorem Alike.ite {P : Prop} [Decidable P] {a b a' b' : Host.Outcome State Fault Refusal} (ha : Alike a a')
    (hb : Alike b b') : Alike (if P then a else b) (if P then a' else b') := by
  by_cases h : P
  · rwa [if_pos h, if_pos h]
  · rwa [if_neg h, if_neg h]

/-- Doing nothing is alike among any agents. -/
theorem Alike.same (s e : State) : Alike (.next s) (.next (s.withAgents e)) := .next rfl

/-- A fault is alike among any agents (R262). -/
theorem Alike.raised (c : FaultCode) (info : Half) (s e : State) :
    Alike (.next (raiseFault c info s)) (.next (raiseFault c info (s.withAgents e))) :=
  .next (raiseFault_sameBlock (withAgents_sameBlock s e) c info)

/-- Responses are no block state, so they may differ (R13). -/
theorem Alike.respond {t t' : State} (r r' : Response) (h : Alike (.next t) (.next t')) :
    Alike (.next (respond r t)) (.next (respond r' t')) := by
  cases h with
  | next h => exact .next (h ▸ rfl)

/-- Waiting is alike at any port (R13). -/
theorem Alike.waits (i : Instr) (s e : State) : Alike (.next (wait i s)) (.next (wait i (s.withAgents e))) := by
  refine .next ?_
  rw [wait_sameBlock i s, wait_sameBlock i (s.withAgents e)]
  rfl

/-! ## Each command -/

/-- CFG.WRITE answers alike among any agents (R221). -/
theorem cfgWrite_alike (reg : Byte) (d : Half) (s e : State) :
    Alike (execCfgWrite reg d s) (execCfgWrite reg d (s.withAgents e)) := by
  unfold execCfgWrite
  refine .ite (.same s e) ?_
  cases rwRegOfIndex reg with
  | none => exact .raised _ _ s e
  | some r => exact .ite (.raised _ _ s e) (.next (writeReg_withAgents r d s e ▸ withAgents_sameBlock _ e))

/-- CFG.READ answers alike among any agents (R220). -/
theorem cfgRead_alike (reg : Byte) (s e : State) : Alike (execCfgRead reg s) (execCfgRead reg (s.withAgents e)) := by
  unfold execCfgRead
  cases regOfIndex reg with
  | none => exact .respond _ _ (.raised _ _ s e)
  | some r => exact .respond _ _ (.same s e)

/-- CFG.DERIVE answers alike among any agents (R222). -/
theorem cfgDerive_alike (fmt : BitVec 3) (s e : State) :
    Alike (execCfgDerive fmt s) (execCfgDerive fmt (s.withAgents e)) := by
  unfold execCfgDerive
  refine .ite (.same s e) ?_
  cases fmtOfCode fmt with
  | none => exact .raised _ _ s e
  | some f =>
    refine .ite (.raised _ _ s e) ?_
    rw [deriveState_withAgents]
    cases deriveState f s with
    | none => exact .raised _ _ s e
    | some t => exact .same t e

/-- CTL.START answers alike among any agents (R223). -/
theorem ctlStart_alike (s e : State) : Alike (execCtlStart s) (execCtlStart (s.withAgents e)) := by
  unfold execCtlStart
  refine .ite (.same s e) (.ite (.raised _ _ s e) ?_)
  have hstart : startFault (s.withAgents e) = startFault s := rfl
  rw [hstart]
  cases startFault s with
  | none => exact .next rfl
  | some fault => exact .raised _ _ s e

/-- Q.CLASSIFY answers alike among any agents (R106). -/
theorem qClassify_alike (d : Half) (s e : State) : Alike (execQClassify d s) (execQClassify d (s.withAgents e)) := by
  unfold execQClassify
  have hdepth : ctrlDepth (s.withAgents e) = ctrlDepth s := rfl
  rw [hdepth]
  refine .ite (.respond _ _ (.same s e)) ?_
  cases quantize d (ctrlDepth s) with
  | none => exact .respond _ _ (.raised _ _ s e)
  | some l => exact .respond _ _ (.same s e)

/-- SNK.GET answers alike among any agents (R202). -/
theorem snkGet_alike (s e : State) : Alike (execSnkGet s) (execSnkGet (s.withAgents e)) :=
  .ite (.next rfl) (.ite (.respond _ _ (.same s e)) (.ite (.respond _ _ (.same s e)) (.waits .snkGet s e)))

/-- CTL.ABORT answers alike among any agents (R226). -/
theorem ctlAbort_alike (s e : State) : Alike (execCtlAbort s) (execCtlAbort (s.withAgents e)) :=
  .ite (.same s e) (.raised _ _ s e)

/-- A source command that is accepted reacts by the phase, the configuration and the datapath, which are block state. -/
theorem Reaction.exec_alike {i : Instr} {s : State} (h : Reaction i s) (ha : Accepted i s s) (e : State) :
    Alike (exec i s) (exec i (s.withAgents e)) := by
  change Alike (exec i (s.withChannel s)) (exec i (s.withChannel (s.withAgents e)))
  cases h with
  | emits t bs h =>
    rw [h s ha, h (s.withAgents e) ha]
    exact .next rfl
  | faults code info hp h =>
    rw [h s ha, h (s.withAgents e) ha]
    exact .raised code info s e
  | stops r h =>
    rw [h s ha, h (s.withAgents e) ha]
    exact .stop r

/-- A source command waits at any port, or is accepted on any (R205, R224, R171, R225). -/
theorem source_alike {i : Instr} (hi : (∃ d, i = .srcSample d) ∨ (∃ b, i = .srcByte b) ∨ i = .srcEof) (s e : State) :
    Alike (exec i s) (exec i (s.withAgents e)) := by
  by_cases ha : Accepted i s s
  · exact (source_reaction hi s).exec_alike ha e
  · obtain ⟨hp, hna⟩ := Classical.not_imp.1 ha
    obtain ⟨hne, hq⟩ := not_or.1 hna
    have hinput : (∃ d, i = .srcSample d) ∨ ∃ b, i = .srcByte b := hi.imp_right fun h => h.resolve_right hne
    have hw := (inputWaits_iff s).2 ⟨hp, hq⟩
    rw [exec_of_inputWaits hinput hw, exec_of_inputWaits (s := s.withAgents e) hinput hw]
    exact .waits i s e

/-- Every command answers alike among any agents. -/
theorem exec_alike (i : Instr) (s e : State) : Alike (exec i s) (exec i (s.withAgents e)) := by
  cases i with
  | cfgWrite reg d => exact cfgWrite_alike reg d s e
  | cfgRead reg => exact cfgRead_alike reg s e
  | cfgDerive fmt => exact cfgDerive_alike fmt s e
  | ctlStart => exact ctlStart_alike s e
  | qClassify d => exact qClassify_alike d s e
  | srcSample d => exact source_alike (.inl ⟨d, rfl⟩) s e
  | srcByte b => exact source_alike (.inr (.inl ⟨b, rfl⟩)) s e
  | srcEof => exact source_alike (.inr (.inr rfl)) s e
  | snkGet => exact snkGet_alike s e
  | ctlAbort => exact ctlAbort_alike s e
  | ctlReset => exact .next rfl

/-- Settles O60: on another port the block is the same, among agents that differ. -/
theorem anyAgentMayIssueAnyCommand : Obligations.AnyAgentMayIssueAnyCommand := by
  intro i s t p h
  have alike := exec_alike i s { s with port := p }
  rw [h] at alike
  exact alike.exists_next

end Sys2Proof.Machine
end

section
/-! PROOFS. The turn of an agent whose oldest word is illegal (R261): the word leaves its port, the fault primitive acts on the block,
and OP says whether the agent gets a response. -/

namespace Sys2Proof.Machine

/-- The commands that respond are CFG.READ, Q.CLASSIFY and SNK.GET (R261). -/
theorem opResponds_iff (w : Word) :
    opResponds w = true ↔ opField w = 0x2#4 ∨ opField w = 0x5#4 ∨ opField w = 0x9#4 := by
  simp [opResponds, or_assoc]

/-- On the turn of an agent whose oldest word is illegal, the word is taken and handled as such (R261). -/
theorem step_of_illegal_word {s : State} {p : Port} {turns : List Agent} {w : Word} {ws : List Word}
    (hs : s.sched = .external p :: turns) (hq : portQueue p s = w :: ws) (hd : decodeWord w = none) :
    step s = .next (illegalWord w (taken s p ws)) := by
  have hq' : portQueue p { s with sched := turns } = w :: ws := by rw [portQueue_with_sched, hq]
  rw [step_of_external_turn hs, portStep_of_decodeWord_none hq' hd, taken, hs, List.tail_cons]

/-- Taking a word spends the turn and leaves the words behind it at the port (R13). -/
@[simp] theorem taken_environment (s : State) (p : Port) (ws : List Word) :
    (taken s p ws).sched = s.sched.tail ∧ portQueue p (taken s p ws) = ws := by
  cases p <;> exact ⟨rfl, rfl⟩

/-- An illegal word leaves the turns and every port's words (R261). -/
theorem illegalWord_environment (w : Word) (s : State) :
    (illegalWord w s).sched = s.sched ∧ ∀ p, portQueue p (illegalWord w s) = portQueue p s := by
  rcases illegalWord_cases w s with ⟨-, e⟩ | ⟨-, e⟩ <;> rw [e] <;> simp [portQueue_raiseFault]

/-- An illegal word changes the block by the fault primitive (R261). -/
theorem illegalWord_sameBlock (w : Word) (s : State) :
    sameBlock (raiseFault .illegal (highHalf w) s) (illegalWord w s) := by
  rcases illegalWord_cases w s with ⟨-, e⟩ | ⟨-, e⟩ <;> rw [e]
  · exact respond_sameBlock .fault _
  · exact sameBlock_refl _

/-- An illegal word with the OP of a command that responds gets a FAULT response, and another one none (R261). -/
theorem illegalWord_responses (w : Word) (s : State) :
    (illegalWord w s).responses = if opResponds w = true then s.responses ++ [(s.port, .fault)] else s.responses := by
  rcases illegalWord_cases w s with ⟨hop, e⟩ | ⟨hop, e⟩ <;> simp [e, hop]

/-- Settles O6: taking the word changes no block state, so the fault primitive acts on the block that the turn found. -/
theorem stepHandlesAnIllegalWord : Obligations.StepHandlesAnIllegalWord := by
  intro s p turns w ws hs hq hd
  obtain ⟨hsched, hports⟩ := illegalWord_environment w (taken s p ws)
  have hblock : sameBlock (raiseFault .illegal (highHalf w) s) (illegalWord w (taken s p ws)) :=
    sameBlock_trans (raiseFault_sameBlock (taken_sameBlock s p ws) _ _) (illegalWord_sameBlock w _)
  have hresponses := illegalWord_responses w (taken s p ws)
  refine ⟨_, step_of_illegal_word hs hq hd, by simp [hports], by simp [hsched, hs], fun hf => ?_, fun hf => ?_,
    fun hop => ?_, fun hop => ?_⟩
  · rwa [raiseFault_of_faulted _ _ hf] at hblock
  · rwa [raiseFault_of_not_faulted _ _ hf] at hblock
  · simp [hresponses, (opResponds_iff w).2 hop]
  · simp [hresponses, mt (opResponds_iff w).1 hop]

end Sys2Proof.Machine
end

section
/-! PROOFS. Fairness by the list of turns (R321, log entry 2): a run spends the turns that are listed, and goes on with the producer's
steps alone. -/

namespace Sys2Proof.Machine

/-- A run's first step, when it answers, leaves the rest of the run. -/
theorem run_succ_of_step {s t : State} (h : step s = .next t) (k : Nat) :
    Sys2Proof.core.run (k + 1) s = Sys2Proof.core.run k t := by
  have h' : Sys2Proof.core.step s = .next t := h
  simp only [Host.Core.run, h']

/-- Under the invariant a run gets through the listed turns: no step stops, and each spends one turn. -/
theorem exists_run_through_sched (turns : List Agent) : ∀ s : State, Inv s → s.sched = turns →
    ∃ t, Sys2Proof.core.run turns.length s = .next t ∧ t.sched = [] := by
  induction turns with
  | nil => exact fun s _ hs => ⟨s, rfl, hs⟩
  | cons a turns ih =>
    intro s hinv hs
    obtain ⟨m, hm⟩ := nothingStopsTheModel s hinv
    have hms : m.sched = turns := by rw [step_sched hm, hs, List.tail_cons]
    obtain ⟨t, hrun, ht⟩ := ih m (stepKeepsTheBlockInvariant s m hinv hm) hms
    exact ⟨t, (run_succ_of_step hm _).trans hrun, ht⟩

/-- With no turn listed every step of a run is the producer's, which lists none. -/
theorem run_of_sched_nil (k : Nat) : ∀ s : State, s.sched = [] →
    Sys2Proof.core.run k s = .next (producerStep^[k] s) := by
  induction k with
  | zero => exact fun s _ => rfl
  | succ k ih =>
    intro s hs
    have hstep : step s = .next (producerStep s) := stepGivesTheProducerItsTurn.2.1 s hs
    have hs' : (producerStep s).sched = [] := (producerStep_environment s).2.1.trans hs
    rw [run_succ_of_step hstep, ih _ hs', Function.iterate_succ_apply]

/-- An enabled PUSH fills the empty slot and an enabled CLOSE leaves DRAINING, so the producer's step changes the state. -/
theorem producerStep_ne_self {s : State} (h : pushEnabled s = true ∨ closeEnabled s = true) : producerStep s ≠ s := by
  intro heq
  rcases producerStep_cases s with ⟨b, rest, -, hf, -, e⟩ | ⟨hp, -, e⟩ | ⟨hpush, hclose, -⟩
  · have hfull := congrArg State.slotFull (e.symm.trans heq)
    simp [hf] at hfull
  · have hdone := congrArg State.phase (e.symm.trans heq)
    simp [hp, close] at hdone
  · simp [hpush, hclose] at h

/-- Settles O10: every listed turn is one step of the run, and the producer acts when no turn is left. -/
theorem enabledProducerStepIsNotLeftUntaken : Obligations.EnabledProducerStepIsNotLeftUntaken := by
  refine ⟨fun s hinv => ?_, fun s => (producerStep_environment s).2.1⟩
  obtain ⟨t, hrun, ht⟩ := exists_run_through_sched s.sched s hinv rfl
  exact ⟨t, hrun, ht, fun k => run_of_sched_nil k t ht, producerStep_ne_self⟩

end Sys2Proof.Machine
end

section
/-! PROOFS. CTL.RESET, the way back to the state of power-on reset (R227, R300). -/

namespace Sys2Proof.Machine

/-- Settles O27: in every phase CTL.RESET is `resetState`, which has the block of power-on reset. -/
theorem resetRestoresEveryElement : Obligations.ResetRestoresEveryElement := by
  intro s
  have hexec : exec .ctlReset s = .next (resetState s) := rfl
  refine ⟨resetState s, hexec, resetState_sameBlock s, ?_⟩
  simp [resetState, State.reset]

end Sys2Proof.Machine
end
